-- ==== Sys2Proof/Word.lean ====
section
/-! DEFINITION. The word type of GA-CODEC: the byte (R9, R50). -/

namespace Sys2Proof

/-- "A *byte* is an unsigned integer 0..255" (R9); the width of one buffer element (R7). -/
abbrev Byte := BitVec 8

/-- The byte seen as an unbounded integer, for the exact arithmetic of R10. -/
abbrev byteInt (b : Byte) : Int := (b.toNat : Int)

end Sys2Proof
end

