-- ==== Sys2Proof/Config.lean ====
section
/-! DEFINITION. The implementation parameters of GA-CODEC that the spec leaves OPEN (R7, R8; 93 U1, U2).

The parameters of an instance are plain data (`Params`), carried unchanged by `State`: a statement about every
state is a statement about every palette and every pair of capacities ("a model takes each OPEN parameter as an
argument and proves nothing that depends on a particular value", R7). `Config.hardware` is the one instance that
`State.reset` belongs to; its palette and its capacities are made of constants with no body. -/

namespace Sys2Proof

/-- The OPEN parameters of one instance (R7): the capacities of the two buffers in bytes and the palette table. -/
structure Params where
  /-- `IN_CAP` -/
  inCap   : Nat
  /-- `OUT_CAP` -/
  outCap  : Nat
  /-- `PALETTE[0..7]`; the entries need not be distinct (R8) -/
  palette : Vector Byte 8
deriving DecidableEq, Repr

/-- The only fact the spec gives about the palette: 0x64 is not an entry (R7, R8). -/
abbrev Params.admissible (p : Params) : Prop := (0x64 : Byte) ∉ p.palette.toList

/-- OPEN (U1): what the palette of the hardware is made of. Log entry 2. -/
opaque Config.paletteSource : Fin 8 → Byte

/-- OPEN (U2): how many bytes `IN` has beyond the floor of `Config.hardware`. Log entry 3. -/
opaque Config.inCapAbove : Nat

/-- OPEN (U2): how many bytes `OUT` has beyond the floor of `Config.hardware`. Log entry 3. -/
opaque Config.outCapAbove : Nat

/-- Keeps 0x64 out of the palette and every other byte as it is, so that every admissible palette, and no other,
is `Config.hardware.palette` for some `Config.paletteSource`. Log entry 2. -/
def Config.legalEntry (b : Byte) : Byte := if b = 0x64 then 0x65 else b

/-- The instance that `State.reset` belongs to. DESIGN CHOICE: it has room for one longest token in `IN` (64 bytes,
R76) and for one longest expansion in `OUT` (255 bytes, R76), log entry 3; no statement rests on it. -/
def Config.hardware : Params where
  inCap   := Config.inCapAbove + 64
  outCap  := Config.outCapAbove + 255
  palette := #v[Config.legalEntry (Config.paletteSource 0), Config.legalEntry (Config.paletteSource 1),
    Config.legalEntry (Config.paletteSource 2), Config.legalEntry (Config.paletteSource 3),
    Config.legalEntry (Config.paletteSource 4), Config.legalEntry (Config.paletteSource 5),
    Config.legalEntry (Config.paletteSource 6), Config.legalEntry (Config.paletteSource 7)]

end Sys2Proof
end

