-- ==== Sys2Proof/Syntax.lean ====
section
/-! DEFINITION. The instructions of GA-CODEC: the tokens of an encoded stream as the decoder reads them, one
constructor per row of spec/opcode_table.json (R70 to R76). "The encoded stream in `IN` is the program, each token is
an instruction" (R22). -/

namespace Sys2Proof

/-- A token as it stands in the stream, with the fields of R74. Lengths that the layout derives from a carried
sequence (Literal's `n`, Pattern's `len`) are the length of that sequence. -/
inductive Instr where
  /-- PATTERN, control byte 0xE0: the info byte's `count` and the `len` unit bytes (R175). -/
  | pattern (count : BitVec 4) (unit : List Byte)
  /-- ZERORUN, control byte 0xF0: the count byte (R174). -/
  | zeroRun (n : Byte)
  /-- RESERVED_F1, control byte 0xF1: the reserved escape, no fields (R178). -/
  | reservedF1
  /-- COMMONRUN, control byte 0xF2: the info byte's length `n` and palette index `k` (R177). -/
  | commonRun (n : BitVec 4) (k : BitVec 4)
  /-- LITERAL, mode 00: the `n` raw bytes (R170). -/
  | literal (bytes : List Byte)
  /-- NIBBLE, mode 01: the length field and the ceil(n/2) packed bytes, the pad nibble included (R171, R85). -/
  | nibble (n : BitVec 6) (packed : List Byte)
  /-- RUN, mode 10: the length field and the value byte (R172). -/
  | run (n : BitVec 6) (v : Byte)
  /-- DELTA, mode 11: the length field, the start byte and the delta byte `d + 16` (R173, R83). -/
  | delta (n : BitVec 6) (start : Byte) (db : Byte)
deriving DecidableEq, Repr

end Sys2Proof
end

