-- ==== Sys2Proof/WellFormed.lean ====
section
/-! DEFINITION. Which instruction terms an encoding exists for (R74, R75 column "bits hold", R93). -/

namespace Sys2Proof

/-- The Delta lengths whose control byte `0xC0 | n` is a sentinel (R93): 32, 48, 49 and 50. -/
abbrev shadowedLength (n : Nat) : Bool := n == 32 || n == 48 || n == 49 || n == 50

/-- A term is well formed when the fields it carries fit the layout of R74: the counts of carried bytes fit their
fields, a Nibble carries ceil(n/2) packed bytes, a Delta has none of the four shadowed lengths. A CommonRun with
`k` in 8..15 has an encoding (it raises InvalidPaletteIndex when it runs, R90), so it is well formed. -/
def Instr.wellFormed : Instr → Bool
  | .pattern _ unit   => decide (unit.length ≤ 15)
  | .zeroRun _        => true
  | .reservedF1       => true
  | .commonRun _ _    => true
  | .literal bytes    => decide (bytes.length ≤ 63)
  | .nibble n packed  => packed.length == (n.toNat + 1) / 2
  | .run _ _          => true
  | .delta n _ _      => !shadowedLength n.toNat

end Sys2Proof
end

