-- ==== Sys2Proof/Decode.lean ====
section
/-! DEFINITION. The decoder (R70 to R76, R85 to R94, R160, R165) and, after it, the encoder of instructions, both
written from the layouts of R74. Everything is a total function of a list of bytes. -/

namespace Sys2Proof

/-! ## Bit fields (R9: bit 7 is the most significant) -/

/-- `b[7:6]`, the mode field of format ML (R70). -/
def modeField (b : Byte) : BitVec 2 := b.extractLsb' 6 2

/-- `b[5:0]`, the length field of format ML (R70). -/
def lengthField (b : Byte) : BitVec 6 := b.extractLsb' 0 6

/-- `b[7:4]` (R9). -/
def hiNibble (b : Byte) : BitVec 4 := b.extractLsb' 4 4

/-- `b[3:0]` (R9). -/
def loNibble (b : Byte) : BitVec 4 := b.extractLsb' 0 4

/-- The control byte of format ML with the given mode and length (R70). -/
def controlByte (mode : BitVec 2) (n : BitVec 6) : Byte := mode ++ n

/-- The byte `(hi << 4) | lo` (R18 (5), R85, R86). -/
def joinNibbles (hi lo : BitVec 4) : Byte := hi ++ lo

/-! ## The control-byte map (R71 to R73, R88) -/

/-- The eight rows of the opcode table. -/
inductive Row where
  | pattern | zeroRun | reservedF1 | commonRun | literal | nibble | run | delta
deriving DecidableEq, Repr

/-- The row of a control byte: "sentinels first" (R71, R160), then the mode (R72). -/
def rowOf (c : Byte) : Row :=
  if c = 0xE0 then .pattern
  else if c = 0xF0 then .zeroRun
  else if c = 0xF1 then .reservedF1
  else if c = 0xF2 then .commonRun
  else if modeField c = 0 then .literal
  else if modeField c = 1 then .nibble
  else if modeField c = 2 then .run
  else .delta

/-- One row of spec/opcode_table.json: `match`, `mask`, `priority` and the row's `excludes` (R88). -/
structure OpcodeRow where
  row      : Row
  pattern  : Byte
  mask     : Byte
  priority : Nat
  excludes : List Byte
deriving DecidableEq, Repr

/-- spec/opcode_table.json, row by row. -/
def opcodeTable : List OpcodeRow :=
  [ ⟨.pattern,    0xE0, 0xFF, 1, []⟩,
    ⟨.zeroRun,    0xF0, 0xFF, 1, []⟩,
    ⟨.reservedF1, 0xF1, 0xFF, 1, []⟩,
    ⟨.commonRun,  0xF2, 0xFF, 1, []⟩,
    ⟨.literal,    0x00, 0xC0, 2, []⟩,
    ⟨.nibble,     0x40, 0xC0, 2, []⟩,
    ⟨.run,        0x80, 0xC0, 2, []⟩,
    ⟨.delta,      0xC0, 0xC0, 2, [0xE0, 0xF0, 0xF1, 0xF2]⟩ ]

/-- Does the control byte match the row's pattern under its mask and stand outside its `excludes`? -/
def OpcodeRow.accepts (r : OpcodeRow) (c : Byte) : Bool :=
  (c &&& r.mask) == r.pattern && !r.excludes.contains c

/-! ## The decoder -/

/-- Why no instruction can be read. -/
inductive DecodeError where
  /-- there is no control byte: the stream has ended (R167) -/
  | noControlByte
  /-- a trailing byte of the token lies beyond the end of the stream (R165) -/
  | truncated
deriving DecidableEq, Repr

/-- The availability test `need` of R165 and the read that follows it: the first `k` bytes and what is left, or
Truncated with nothing read. -/
def takeBytes (k : Nat) (bytes : List Byte) : Except DecodeError (List Byte × List Byte) :=
  if bytes.length < k then .error .truncated else .ok (bytes.take k, bytes.drop k)

/-- Literal: `n` trailing bytes (R170). -/
def decodeLiteral (n : BitVec 6) (t : List Byte) : Except DecodeError (Instr × List Byte) :=
  match takeBytes n.toNat t with
  | .error e => .error e
  | .ok (bytes, rest) => .ok (.literal bytes, rest)

/-- Nibble: ceil(n/2) trailing bytes (R171). -/
def decodeNibble (n : BitVec 6) (t : List Byte) : Except DecodeError (Instr × List Byte) :=
  match takeBytes ((n.toNat + 1) / 2) t with
  | .error e => .error e
  | .ok (packed, rest) => .ok (.nibble n packed, rest)

/-- Run: one trailing byte (R172). -/
def decodeRun (n : BitVec 6) : List Byte → Except DecodeError (Instr × List Byte)
  | v :: rest => .ok (.run n v, rest)
  | [] => .error .truncated

/-- Delta: two trailing bytes (R173). -/
def decodeDelta (n : BitVec 6) : List Byte → Except DecodeError (Instr × List Byte)
  | start :: db :: rest => .ok (.delta n start db, rest)
  | [_] => .error .truncated
  | [] => .error .truncated

/-- ZeroRun: one trailing byte (R174). -/
def decodeZeroRun : List Byte → Except DecodeError (Instr × List Byte)
  | n :: rest => .ok (.zeroRun n, rest)
  | [] => .error .truncated

/-- CommonRun: one trailing byte, `n` in its high and `k` in its low nibble (R177, R86). -/
def decodeCommonRun : List Byte → Except DecodeError (Instr × List Byte)
  | info :: rest => .ok (.commonRun (hiNibble info) (loNibble info), rest)
  | [] => .error .truncated

/-- Pattern: the info byte, then the `len` unit bytes, an availability test before each (R175, R176). -/
def decodePattern : List Byte → Except DecodeError (Instr × List Byte)
  | info :: t =>
    match takeBytes (hiNibble info).toNat t with
    | .error e => .error e
    | .ok (unit, rest) => .ok (.pattern (loNibble info) unit, rest)
  | [] => .error .truncated

/-- The token at the head of a stream and the stream after it (R160, R166 (1) to (3), R176). -/
def decodeToken : List Byte → Except DecodeError (Instr × List Byte)
  | [] => .error .noControlByte
  | c :: t =>
    match rowOf c with
    | .pattern    => decodePattern t
    | .zeroRun    => decodeZeroRun t
    | .reservedF1 => .ok (.reservedF1, t)
    | .commonRun  => decodeCommonRun t
    | .literal    => decodeLiteral (lengthField c) t
    | .nibble     => decodeNibble (lengthField c) t
    | .run        => decodeRun (lengthField c) t
    | .delta      => decodeDelta (lengthField c) t

/-! ## The encoder of instructions (R74) -/

/-- The bytes of a well-formed instruction, control byte first (R54, R74). -/
def encode : Instr → List Byte
  | .pattern count unit => 0xE0 :: joinNibbles (BitVec.ofNat 4 unit.length) count :: unit
  | .zeroRun n          => [0xF0, n]
  | .reservedF1         => [0xF1]
  | .commonRun n k      => [0xF2, joinNibbles n k]
  | .literal bytes      => controlByte 0 (BitVec.ofNat 6 bytes.length) :: bytes
  | .nibble n packed    => controlByte 1 n :: packed
  | .run n v            => [controlByte 2 n, v]
  | .delta n start db   => [controlByte 3 n, start, db]

/-! ## Instruction words numbered as the opcode table numbers them -/

/-- The longest token: a Literal with n = 63 (R76). -/
abbrev longestToken : Nat := 64

/-- An instruction word of `nbits` bits laid out as the stream holds it: bits 7..0 are the control byte, the first
byte (R54 (1)); every byte above `nbits` is 0, up to the longest token. -/
def wordBytes (nbits w : Nat) : List Byte :=
  (List.range longestToken).map fun i => BitVec.ofNat 8 ((w % 2 ^ nbits) / 2 ^ (8 * i))

/-- What the decoder reads from an instruction word numbered as spec/opcode_table.json numbers it. -/
def decodeTableWord (nbits w : Nat) : Option Instr :=
  match decodeToken (wordBytes nbits w) with
  | .ok (i, _) => some i
  | .error _ => none

end Sys2Proof
end

