-- ==== Sys2Proof/Machine/Operands.lean ====
section
/-! DEFINITION. The operand forms of the tokens: packed nibbles (R85), repeated values and units (R11), arithmetic
progressions modulo 128 (R18, R83), the palette (R12, R30); and the expansion of each token, one function per row of
the opcode table, giving (size of the token in bytes, expansion) as `Expand...` of R170 to R177 does. -/

namespace Sys2Proof.Machine

/-! ## Palette (R12) -/

/-- The least index that holds `v`, if there is one: `paletteIndex(v)`. -/
def paletteIndex (pal : Vector Byte 8) (v : Byte) : Option Nat := pal.toList.findIdx? (· == v)

/-- `inPalette(v)`. -/
def inPalette (pal : Vector Byte 8) (v : Byte) : Bool := (paletteIndex pal v).isSome

/-! ## Operand forms -/

/-- A nibble as a byte, zero-extended (R85). -/
def nibbleByte (v : BitVec 4) : Byte := v.setWidth 8

/-- All values of packed bytes, the high nibble first (R54 (3), R85). -/
def unpackNibbles (packed : List Byte) : List Byte :=
  packed.flatMap fun b => [nibbleByte (hiNibble b), nibbleByte (loNibble b)]

/-- `(previous + d) mod 128` with the Euclidean remainder (R10, R18 (2)). -/
def deltaNext (d : Int) (previous : Byte) : Byte := BitVec.ofNat 8 ((byteInt previous + d) % 128).toNat

/-- The `n` values of a progression whose first value is `start`, unchanged (R173). -/
def progression (d : Int) : Nat → Byte → List Byte
  | 0, _ => []
  | n + 1, start => start :: progression d n (deltaNext d start)

/-- `d = deltabyte - 16`, an integer in -16..239, not range-checked (R83). -/
def deltaOfByte (db : Byte) : Int := byteInt db - 16

/-- `rep(unit, count)` (R11). -/
def repeatUnit (unit : List Byte) (count : Nat) : List Byte := (List.replicate count unit).flatten

/-! ## Expansions -/

/-- `ExpandLiteral` (R170). -/
def expandLiteral (bytes : List Byte) : Nat × List Byte := (1 + bytes.length, bytes)

/-- `ExpandNibble` (R171): the first `n` values; the pad nibble of an odd `n` is ignored. -/
def expandNibble (n : BitVec 6) (packed : List Byte) : Nat × List Byte :=
  (1 + (n.toNat + 1) / 2, (unpackNibbles packed).take n.toNat)

/-- `ExpandRun` (R172). -/
def expandRun (n : BitVec 6) (v : Byte) : Nat × List Byte := (2, List.replicate n.toNat v)

/-- `ExpandDelta` (R173). -/
def expandDelta (n : BitVec 6) (start db : Byte) : Nat × List Byte :=
  (3, progression (deltaOfByte db) n.toNat start)

/-- `ExpandZeroRun` (R174). -/
def expandZeroRun (n : Byte) : Nat × List Byte := (2, List.replicate n.toNat 0)

/-- `ExpandPattern` (R175). -/
def expandPattern (count : BitVec 4) (unit : List Byte) : Nat × List Byte :=
  (2 + unit.length, repeatUnit unit count.toNat)

/-- `ExpandCommonRun` (R177): the index is checked whatever `n` is; a `k` in 8..15 has no expansion. -/
def expandCommonRun (pal : Vector Byte 8) (n k : BitVec 4) : Option (Nat × List Byte) :=
  match pal.toList[k.toNat]? with
  | some v => some (2, List.replicate n.toNat v)
  | none => none

end Sys2Proof.Machine
end

