-- ==== Sys2Proof/Machine/Token.lean ====
section
/-! DEFINITION. The tokens the encoder works with (R14): the tagged union of the spec, with unbounded lengths and an
integer delta, before any field check. Their coverage, their expansion and their textual form (R92). -/

namespace Sys2Proof.Machine

/-- A token as the evaluators propose it (R14). A Nibble value is carried as a byte; the packer checks that it is at
most 15 (R141). -/
inductive Token where
  | literal (bytes : List Byte)
  | run (v : Byte) (n : Nat)
  | commonRun (v : Byte) (n : Nat)
  | zeroRun (n : Nat)
  | delta (start : Byte) (d : Int) (n : Nat)
  | nibble (values : List Byte)
  | pattern (unit : List Byte) (count : Nat)
deriving DecidableEq, Repr

/-- The coverage length `cov(t)` (R14). -/
def cov : Token → Nat
  | .literal bytes => bytes.length
  | .run _ n => n
  | .commonRun _ n => n
  | .zeroRun n => n
  | .delta _ _ n => n
  | .nibble values => values.length
  | .pattern unit count => unit.length * count

/-- The original bytes the token stands for, by the token rules R170 to R177. -/
def covered : Token → List Byte
  | .literal bytes => bytes
  | .run v n => List.replicate n v
  | .commonRun v n => List.replicate n v
  | .zeroRun n => List.replicate n 0
  | .delta start d n => progression d n start
  | .nibble values => values
  | .pattern unit count => repeatUnit unit count

/-! ## Textual form (R92) -/

/-- One hexadecimal digit, capital letters as in the spec's vectors. -/
def hexDigit (n : Nat) : Char := if n < 10 then Char.ofNat (48 + n) else Char.ofNat (55 + n)

/-- A byte as two hexadecimal digits. -/
def hexByte (b : Byte) : List Char := [hexDigit (b.toNat / 16), hexDigit (b.toNat % 16)]

/-- The items separated by a comma and a space. -/
def commaList : List (List Char) → List Char
  | [] => []
  | [x] => x
  | x :: y :: t => x ++ [',', ' '] ++ commaList (y :: t)

/-- A list in brackets. -/
def bracketed (items : List (List Char)) : List Char := '[' :: commaList items ++ [']']

/-- The textual form of a token (R92): bytes in hexadecimal, nibbles as one digit, lengths and counts in decimal. -/
def tokenText : Token → List Char
  | .literal bytes => "Literal(".toList ++ bracketed (bytes.map hexByte) ++ [')']
  | .run v n => "Run(".toList ++ commaList [hexByte v, Nat.toDigits 10 n] ++ [')']
  | .commonRun v n => "CommonRun(".toList ++ commaList [hexByte v, Nat.toDigits 10 n] ++ [')']
  | .zeroRun n => "ZeroRun(".toList ++ Nat.toDigits 10 n ++ [')']
  | .delta start d n =>
    "Delta(".toList ++ commaList [hexByte start,
      (if d < 0 then ['-'] else []) ++ Nat.toDigits 10 d.natAbs, Nat.toDigits 10 n] ++ [')']
  | .nibble values => "Nibble(".toList ++ bracketed (values.map fun v => [hexDigit v.toNat]) ++ [')']
  | .pattern unit count =>
    "Pattern(".toList ++ commaList [bracketed (unit.map hexByte), Nat.toDigits 10 count] ++ [')']

/-- A stream of tokens, "separated by `|`" (R92). -/
def streamText : List Token → List Char
  | [] => []
  | [t] => tokenText t
  | t :: u :: ts => tokenText t ++ [' ', '|', ' '] ++ streamText (u :: ts)

/-- The token an instruction of a stream stands for, under a palette: "`v = PALETTE[k]` on the way back" (R95). None
for the reserved escape and for a palette index above 7, which stand for no token. -/
def tokenOf (pal : Vector Byte 8) : Instr → Option Token
  | .pattern count unit => some (.pattern unit count.toNat)
  | .zeroRun n => some (.zeroRun n.toNat)
  | .reservedF1 => none
  | .commonRun n k => (pal.toList[k.toNat]?).map fun v => .commonRun v n.toNat
  | .literal bytes => some (.literal bytes)
  | .nibble n packed => some (.nibble ((unpackNibbles packed).take n.toNat))
  | .run n v => some (.run v n.toNat)
  | .delta n start db => some (.delta start (deltaOfByte db) n.toNat)

end Sys2Proof.Machine
end

