-- ==== Sys2Proof/Machine/Evaluators.lean ====
section
/-! DEFINITION. The five strategy evaluators, the literal fallback and the selector (R100 to R125, R130). Every
evaluator looks only from its position on, so each is written as a function of the suffix `IN[pos .. N-1]`
("...At") and given at a position of an input by `drop`. A list has no byte beyond its end, so nothing is read past
the input (R52). -/

namespace Sys2Proof.Machine

/-! ## Thresholds and caps (R7, R125) -/

@[simp] abbrev litMax : Nat := 63
@[simp] abbrev runMin : Nat := 3
@[simp] abbrev runMax : Nat := 63
@[simp] abbrev commonRunMax : Nat := 15
@[simp] abbrev zeroRunMin : Nat := 3
@[simp] abbrev zeroRunMax : Nat := 255
@[simp] abbrev deltaMin : Nat := 3
@[simp] abbrev deltaMax : Nat := 63
@[simp] abbrev deltaAbsMax : Int := 15
@[simp] abbrev nibMin : Nat := 4
@[simp] abbrev nibMax : Nat := 62
@[simp] abbrev patUnitMin : Nat := 2
@[simp] abbrev patUnitMax : Nat := 15
@[simp] abbrev patCountMax : Nat := 15

/-! ## ZeroRun, NibblePack, RunLength -/

/-- The `while` loop that ZeroRun, NibblePack and RunLength share: how many leading bytes meet the test, at most
`cap`. -/
def countWhile (test : Byte → Bool) : Nat → List Byte → Nat
  | 0, _ => 0
  | _ + 1, [] => 0
  | cap + 1, b :: t => if test b then countWhile test cap t + 1 else 0

/-- `ZeroRunEval` (R102). -/
def zeroRunAt (r : List Byte) : Option Token :=
  let n := countWhile (· == 0) zeroRunMax r
  if zeroRunMin ≤ n then some (.zeroRun n) else none

/-- `NibbleEval` (R110). -/
def nibbleAt (r : List Byte) : Option Token :=
  let n := countWhile (fun b => decide (b.toNat < 16)) nibMax r
  if nibMin ≤ n then some (.nibble (r.take n)) else none

/-- `RunEval` (R117, R118). -/
def runAt (pal : Vector Byte 8) : List Byte → Option Token
  | [] => none
  | v :: t =>
    let n := countWhile (· == v) runMax (v :: t)
    if n < runMin then none
    else if inPalette pal v && decide (n ≤ commonRunMax) then some (.commonRun v n)
    else some (.run v n)

/-! ## DeltaSequence -/

/-- The extension loop of R104: how many further bytes continue the progression after `previous`, at most `cap`. -/
def deltaCount (d : Int) : Nat → Byte → List Byte → Nat
  | 0, _, _ => 0
  | _ + 1, _, [] => 0
  | cap + 1, previous, b :: t => if b = deltaNext d previous then deltaCount d cap b t + 1 else 0

/-- The forbidden lengths of R107: 32 becomes 31; 48, 49 and 50 become 47. -/
def avoidShadowed (n : Nat) : Nat :=
  if n = 32 then 31 else if n = 48 ∨ n = 49 ∨ n = 50 then 47 else n

/-- `DeltaEval` (R104 to R107). The delta is the integer difference, not reduced (R105). -/
def deltaAt : List Byte → Option Token
  | [] => none
  | [_] => none
  | s :: b :: t =>
    let d := byteInt b - byteInt s
    if d < -deltaAbsMax ∨ d > deltaAbsMax ∨ d = 0 then none
    else
      let n := 1 + deltaCount d (deltaMax - 1) s (b :: t)
      if n < deltaMin then none else some (.delta s d (avoidShadowed n))

/-! ## PatternMatch -/

/-- How many further copies of the unit follow, at most `cap` (R112, R113). -/
def unitCount (unit : List Byte) : Nat → List Byte → Nat
  | 0, _ => 0
  | cap + 1, r =>
    if unit.length ≤ r.length ∧ r.take unit.length = unit then unitCount unit cap (r.drop unit.length) + 1 else 0

/-- The count `c` of the candidate unit length `p`, the first occurrence included (R112, R113, R114). -/
def patternCount (r : List Byte) (p : Nat) : Nat := 1 + unitCount (r.take p) (patCountMax - 1) (r.drop p)

/-- The bytes saved, `c*p - (2 + p)`, a signed integer (R18 (4), R112). -/
def patternScore (p c : Nat) : Int := (c : Int) * p - (2 + p)

/-- The best candidate so far: unit length, count, score. -/
structure Best where
  p     : Nat
  c     : Nat
  score : Int
deriving DecidableEq, Repr

/-- One turn of the loop over `p` (R112): a strictly greater score replaces the best (R115). -/
def tryUnit (r : List Byte) (best : Best) (p : Nat) : Best :=
  if 2 * p ≤ r.length then
    let c := patternCount r p
    if best.score < patternScore p c then ⟨p, c, patternScore p c⟩ else best
  else best

/-- The candidate unit lengths in the order they are tried: 2, 3, ..., 15 (R114, R115). -/
def unitLengths : List Nat := (List.range (patUnitMax + 1 - patUnitMin)).map (· + patUnitMin)

/-- `PatternEval` (R112). -/
def patternAt (r : List Byte) : Option Token :=
  let best := unitLengths.foldl (tryUnit r) ⟨0, 0, 0⟩
  if 0 < best.score ∧ 2 ≤ best.c then some (.pattern (r.take best.p) best.c) else none

/-! ## Literal -/

/-- `Run3` (R120): three equal bytes begin here, all inside the input. -/
def run3At : List Byte → Bool
  | a :: b :: c :: _ => a == b && b == c
  | _ => false

/-- The `while` loop of `LiteralEval`: how many further bytes are taken, at most `cap` (R120, R122). -/
def literalCount : Nat → List Byte → Nat
  | 0, _ => 0
  | _ + 1, [] => 0
  | cap + 1, b :: t =>
    if run3At (b :: t) || (deltaAt (b :: t)).isSome then 0 else literalCount cap t + 1

/-- `LiteralEval` (R120): the byte at the cursor is always taken (R121). -/
def literalAt (r : List Byte) : Token := .literal (r.take (1 + literalCount (litMax - 1) r.tail))

/-! ## The evaluators at a position, and the selector -/

def zeroRunEval (x : List Byte) (pos : Nat) : Option Token := zeroRunAt (x.drop pos)
def deltaEval (x : List Byte) (pos : Nat) : Option Token := deltaAt (x.drop pos)
def nibbleEval (x : List Byte) (pos : Nat) : Option Token := nibbleAt (x.drop pos)
def patternEval (x : List Byte) (pos : Nat) : Option Token := patternAt (x.drop pos)
def runEval (pal : Vector Byte 8) (x : List Byte) (pos : Nat) : Option Token := runAt pal (x.drop pos)
def literalEval (x : List Byte) (pos : Nat) : Token := literalAt (x.drop pos)

/-- The results of the five evaluators, in priority order (R101). -/
def proposals (pal : Vector Byte 8) (r : List Byte) : List (Option Token) :=
  [zeroRunAt r, deltaAt r, nibbleAt r, patternAt r, runAt pal r]

/-- The priority encoder of R132: all five evaluators side by side, the lowest-numbered one that accepts wins. -/
def priorityEncode : List (Option Token) → Token → Token
  | [], fallback => fallback
  | some t :: _, _ => t
  | none :: rest, fallback => priorityEncode rest fallback

/-- `Select` (R130) on the suffix at the cursor: evaluators 1 to 5 one after another, then the literal fallback. -/
def selectAt (pal : Vector Byte 8) (r : List Byte) : Token :=
  match zeroRunAt r with
  | some t => t
  | none =>
    match deltaAt r with
    | some t => t
    | none =>
      match nibbleAt r with
      | some t => t
      | none =>
        match patternAt r with
        | some t => t
        | none =>
          match runAt pal r with
          | some t => t
          | none => literalAt r

/-- `Select(pos)` (R130). -/
def select (pal : Vector Byte 8) (x : List Byte) (pos : Nat) : Token := selectAt pal (x.drop pos)

end Sys2Proof.Machine
end

