-- ==== Sys2Proof/Machine/State.lean ====
section
/-! DEFINITION. The state of GA-CODEC as plain data (R20 to R37), the reasons a step can stop, and the state after
reset (R36, R240). -/

namespace Sys2Proof.Machine

/-- `OP`, 1 bit (R24, R25). -/
inductive Op where
  | compress | decompress
deriving DecidableEq, Repr

/-- `STATUS`, 2 bits (R24, R27). -/
inductive Status where
  | idle | busy | done | failed
deriving DecidableEq, Repr

/-- The five typed errors (R210). The register `ERR` holds one of them or none (R24, U20: codes 6 and 7 never
occur). -/
inductive CodecError where
  | allocationFailure | truncated | invalidPaletteIndex | unknownEscape | fieldTruncated
deriving DecidableEq, Repr

/-- One buffer: the bytes that have been written, as (index, byte) pairs with strictly rising indexes. An index that
is not listed holds no value (R36). -/
abbrev Memory := List Host.Cell

/-- The moves of the only other agent, the host (R16, R190, R240). The spec names them as events; the list of moves
the host is about to make stands in `State.host`, so that one deterministic step covers both agents. Log entry 4. -/
inductive HostMove where
  /-- write one byte of `IN` (R32, R190 (1)) -/
  | writeIn (i : Nat) (b : Byte)
  /-- write `IN_LEN` (R24, R190 (2)) -/
  | writeInLen (n : Nat)
  /-- write `OP` (R24, R190 (2)) -/
  | writeOp (o : Op)
  /-- the command `START` (R190, R191) -/
  | start
  /-- reset (R240, R241) -/
  | reset
  /-- let the engine take one transition -/
  | yield
  /-- let the engine run until `STATUS` is no longer BUSY (R190 (4)) -/
  | wait
deriving DecidableEq, Repr

/-- The complete state (R20): the host-visible registers, the working registers, the two buffers; with them the
parameters of the instance, which no step changes (R7), and the model's own list of host moves to come. -/
structure State where
  /-- the parameters of this instance: `IN_CAP`, `OUT_CAP`, `PALETTE` (R7, R30) -/
  par    : Params
  /-- `OP` (R25) -/
  op     : Op
  /-- `IN_LEN`, LEN_W bits (R26) -/
  inLen  : Nat
  /-- `STATUS` (R27) -/
  status : Status
  /-- `ERR`: `none` is code 0 (R28) -/
  err    : Option CodecError
  /-- `OUT_LEN`, LEN_W bits (R29) -/
  outLen : Nat
  /-- `POS`, LEN_W bits: the cursor, the engine's program counter (R22) -/
  pos    : Nat
  /-- `OLEN`, LEN_W bits: bytes appended to `OUT` so far (R23) -/
  olen   : Nat
  /-- `IN` (R32) -/
  inMem  : Memory
  /-- `OUT` (R33) -/
  outMem : Memory
  /-- the moves the host is about to make, the next one first (the model's own field, log entry 4) -/
  host   : List HostMove
deriving DecidableEq, Repr

/-- Why the machine stops. -/
inductive Fault where
  /-- Raised by the engine's turn when STATUS is IDLE, DONE or FAILED and the host makes no move: "the engine has no
  step" (R37). Safe: the hardware waits there. -/
  | engineQuiescent
  /-- Raised by the engine's turn when a byte of `IN[POS .. IN_LEN-1]` has never been written, or lies beyond
  `IN_CAP` (R36, U4, R52). `START` refuses such an input, so no run reaches it. Safe. -/
  | inputByteMissing
  /-- Raised by the engine's turn when BUSY with `POS > IN_LEN`, which R22 excludes; no run reaches it. Safe. -/
  | cursorPastInput
deriving DecidableEq, Repr

/-- Moves the spec gives no meaning. -/
inductive Refusal where
  /-- Raised by an arm of `exec` whose instruction has no meaning yet; no arm is left. Safe. -/
  | notModelled (mnemonic : String)
  /-- Raised by the host's turn: a write of `IN`, `IN_LEN` or `OP` while BUSY (R246, U6). Unsafe, as U6 itself says:
  a real host may do it; log entry 6. -/
  | hostWriteWhileBusy
  /-- Raised by the host's turn: a write of `IN[i]` with `i >= IN_CAP`; `IN` has no such byte (R32). Safe. -/
  | inIndexPastCapacity
  /-- Raised by the host's turn: a value for `IN_LEN` that does not fit its LEN_W bits (R24). Safe. -/
  | inLenTooWide
  /-- Raised by the host's turn: `START` with `IN_LEN > IN_CAP` (R191, U7). Safe. -/
  | startPastCapacity
  /-- Raised by the host's turn: `START` while a byte of `IN[0 .. IN_LEN-1]` was never written (R245, U4). DESIGN CHOICE
  among the two treatments of U4, log entry 5. Safe. -/
  | startInputUnwritten
deriving DecidableEq, Repr

/-- The state after reset of an instance with the given parameters (R36, R240): `STATUS = IDLE`, `ERR = 0`,
`OUT_LEN = 0`, `OP = COMPRESS`, `IN_LEN = 0`, `POS = 0`, `OLEN = 0`; no byte of `IN` or `OUT` holds a value; the
host has made no move. -/
def State.resetOf (p : Params) : State where
  par    := p
  op     := .compress
  inLen  := 0
  status := .idle
  err    := none
  outLen := 0
  pos    := 0
  olen   := 0
  inMem  := []
  outMem := []
  host   := []

/-- The machine right after reset. -/
def State.reset : State := State.resetOf Config.hardware

end Sys2Proof.Machine
end

