-- ==== Sys2Proof/Machine/Packer.lean ====
section
/-! DEFINITION. The packer (R140 to R148): the field check, then the token's own layout. -/

namespace Sys2Proof.Machine

/-- The field check of R141: does every field fit the bits that carry it? -/
def fieldsFit (pal : Vector Byte 8) : Token → Bool
  | .literal bytes => decide (bytes.length ≤ 63)
  | .run _ n => decide (n ≤ 63)
  | .delta _ d n => decide (n ≤ 63) && !shadowedLength n && decide (0 ≤ d + 16 ∧ d + 16 ≤ 255)
  | .nibble values => decide (values.length ≤ 63) && values.all fun v => decide (v.toNat ≤ 15)
  | .zeroRun n => decide (n ≤ 255)
  | .pattern unit count => decide (unit.length ≤ 15) && decide (count ≤ 15)
  | .commonRun v n => inPalette pal v && decide (n ≤ 15)

/-- The low eight bits of an unbounded integer, `trunc8` (R10); after the field check it changes no value (R86). -/
def trunc8 (n : Nat) : Byte := BitVec.ofNat 8 n

/-- `B(j)` of R145: the earlier value in the high nibble, the later, or the pad 0, in the low one. -/
def packNibbles : List Byte → List Byte
  | [] => []
  | [a] => [trunc8 (a.toNat <<< 4)]
  | a :: b :: t => trunc8 ((a.toNat <<< 4) ||| b.toNat) :: packNibbles t

/-- R142. -/
def packLiteral (bytes : List Byte) : List Byte := trunc8 (0x00 ||| bytes.length) :: bytes

/-- R143. -/
def packRun (v : Byte) (n : Nat) : List Byte := [trunc8 (0x80 ||| n), v]

/-- R144. -/
def packDelta (start : Byte) (d : Int) (n : Nat) : List Byte := [trunc8 (0xC0 ||| n), start, trunc8 (d + 16).toNat]

/-- R145. -/
def packNibble (values : List Byte) : List Byte := trunc8 (0x40 ||| values.length) :: packNibbles values

/-- R146. -/
def packZeroRun (n : Nat) : List Byte := [0xF0, trunc8 n]

/-- R147; a value outside the palette does not pass the field check. -/
def packCommonRun (pal : Vector Byte 8) (v : Byte) (n : Nat) : List Byte :=
  [0xF2, trunc8 ((n <<< 4) ||| (paletteIndex pal v).getD 0)]

/-- R148. -/
def packPattern (unit : List Byte) (count : Nat) : List Byte :=
  0xE0 :: trunc8 ((unit.length <<< 4) ||| (count &&& 0xF)) :: unit

/-- The token's own layout, "control byte first" (R140). -/
def pack (pal : Vector Byte 8) : Token → List Byte
  | .literal bytes => packLiteral bytes
  | .run v n => packRun v n
  | .delta start d n => packDelta start d n
  | .nibble values => packNibble values
  | .zeroRun n => packZeroRun n
  | .commonRun v n => packCommonRun pal v n
  | .pattern unit count => packPattern unit count

/-- `Serialize(t)` (R140, R141): FieldTruncated before any byte of the token is formed, or the token's bytes. -/
def serialize (pal : Vector Byte 8) (t : Token) : Except CodecError (List Byte) :=
  if fieldsFit pal t then .ok (pack pal t) else .error .fieldTruncated

end Sys2Proof.Machine
end

