-- ==== Sys2Proof/Machine/Codec.lean ====
section
/-! DEFINITION. The two operations as functions of byte sequences (R17, R131, R161), written without the state
machine; the state machine is related to them by statements, not by definition. -/

namespace Sys2Proof.Machine

/-- `Expand` on a whole token (R160): its size and its expansion, or the error its own rule raises. -/
def expand (pal : Vector Byte 8) : Instr → Except CodecError (Nat × List Byte)
  | .pattern count unit => .ok (expandPattern count unit)
  | .zeroRun n => .ok (expandZeroRun n)
  | .reservedF1 => .error .unknownEscape
  | .commonRun n k =>
    match expandCommonRun pal n k with
    | some e => .ok e
    | none => .error .invalidPaletteIndex
  | .literal bytes => .ok (expandLiteral bytes)
  | .nibble n packed => .ok (expandNibble n packed)
  | .run n v => .ok (expandRun n v)
  | .delta n start db => .ok (expandDelta n start db)

/-- The loop of `encode(x)` (R131) from the cursor on; `fuel` bounds the number of tokens. -/
def compressFrom (pal : Vector Byte 8) : Nat → List Byte → Except CodecError (List Byte)
  | _, [] => .ok []
  | 0, _ :: _ => .ok []
  | fuel + 1, b :: t =>
    match serialize pal (selectAt pal (b :: t)) with
    | .error e => .error e
    | .ok bytes =>
      match compressFrom pal fuel ((b :: t).drop (cov (selectAt pal (b :: t)))) with
      | .error e => .error e
      | .ok out => .ok (bytes ++ out)

/-- `compress(input)` (R17, R131): every token covers at least one byte (R134), so `len(x)` turns suffice. -/
def compress (pal : Vector Byte 8) (x : List Byte) : Except CodecError (List Byte) := compressFrom pal x.length x

/-- The loop of `decode(e)` (R161) from the cursor on; `fuel` bounds the number of tokens. -/
def decompressFrom (pal : Vector Byte 8) : Nat → List Byte → Except CodecError (List Byte)
  | _, [] => .ok []
  | 0, _ :: _ => .ok []
  | fuel + 1, c :: t =>
    match decodeToken (c :: t) with
    | .error _ => .error .truncated
    | .ok (i, rest) =>
      match expand pal i with
      | .error e => .error e
      | .ok (_, exp) =>
        match decompressFrom pal fuel rest with
        | .error e => .error e
        | .ok out => .ok (exp ++ out)

/-- `decompress(input)` (R17, R161): every token is at least one byte long (R164), so `len(e)` turns suffice. -/
def decompress (pal : Vector Byte 8) (e : List Byte) : Except CodecError (List Byte) := decompressFrom pal e.length e

end Sys2Proof.Machine
end

