-- ==== Sys2Proof/Machine/Ops.lean ====
section
/-! DEFINITION. The named operations over buffers and registers: byte reads and writes (R50 to R53), `emit` (R13,
R211), the cursor advance (R163), the failure entry shared by every error (R220), the start and the finishing
transition (R191, R193). -/

namespace Sys2Proof.Machine

/-! ## Buffers -/

/-- The canonical form of a buffer: strictly rising indexes. Every listed entry is a value, an unlisted index holds
none, so equal contents are equal lists. -/
abbrev Memory.wf (m : Memory) : Prop := m.Pairwise fun a b => a.1 < b.1

/-- The byte at an index, if one was ever written (R36). -/
def Memory.read : Memory → Nat → Option Byte
  | [], _ => none
  | (i, b) :: m, a => if a = i then some b else Memory.read m a

/-- Stores one byte, keeping the indexes rising. -/
def Memory.write : Memory → Nat → Byte → Memory
  | [], a, v => [(a, v)]
  | (i, b) :: m, a, v =>
    if a < i then (a, v) :: (i, b) :: m
    else if a = i then (a, v) :: m
    else (i, b) :: Memory.write m a v

/-- `MemRead(space, a, n)`: the bytes at a, a+1, ..., a+n-1 in that order (R50); nothing if one of them holds no
value. -/
def Memory.readBytes (m : Memory) : Nat → Nat → Option (List Byte)
  | _, 0 => some []
  | a, n + 1 =>
    match m.read a, Memory.readBytes m (a + 1) n with
    | some b, some t => some (b :: t)
    | _, _ => none

/-- `MemWrite(space, a, n, s)`: stores `s[k]` at `a + k`, in ascending index order (R50, R60 (2)). -/
def Memory.writeBytes : Memory → Nat → List Byte → Memory
  | m, _, [] => m
  | m, a, b :: t => Memory.writeBytes (m.write a b) (a + 1) t

/-- `IN[POS .. IN_LEN-1]`: what the engine can read from its cursor on. Nothing if a byte of it was never written or
if `IN_LEN` reaches beyond `IN_CAP` (R26, R32, R52). -/
def State.remaining (s : State) : Option (List Byte) :=
  if s.inLen ≤ s.par.inCap then s.inMem.readBytes s.pos (s.inLen - s.pos) else none

/-- `IN[0 .. IN_LEN-1]`: the whole input of an operation (R26). -/
def State.input (s : State) : Option (List Byte) :=
  if s.inLen ≤ s.par.inCap then s.inMem.readBytes 0 s.inLen else none

/-! ## Registers -/

/-- Searches upward from `w`, at most `fuel` widths, for the first width whose range passes `m`. -/
def leastWidth (m : Nat) : Nat → Nat → Nat
  | 0, w => w
  | fuel + 1, w => if m < 2 ^ w then w else leastWidth m fuel (w + 1)

/-- `LEN_W`: the smallest `w` with `2^w > max(IN_CAP, OUT_CAP)` (R7). -/
def lenW (p : Params) : Nat := leastWidth (max p.inCap p.outCap) (max p.inCap p.outCap) 0

/-! ## Output and cursor -/

/-- `OUT[OLEN ..]` receives the bytes and `OLEN` counts them (R13, R53). -/
def appendOut (bytes : List Byte) (s : State) : State :=
  { s with outMem := s.outMem.writeBytes s.olen bytes, olen := s.olen + bytes.length }

/-- `emit(s)` (R13): the capacity test of R211 on the whole group, then the append; none of the group is written if
it does not fit. -/
def emit (bytes : List Byte) (s : State) : Except CodecError State :=
  if s.par.outCap < s.olen + bytes.length then .error .allocationFailure else .ok (appendOut bytes s)

/-- `POS <- POS + size` (R163, R180). -/
def advance (size : Nat) (s : State) : State := { s with pos := s.pos + size }

/-! ## Taking an exception, and leaving it -/

/-- `Fail(E)`, the failure entry (R220): `OUT_LEN <- 0`, `ERR <- code(E)`, `STATUS <- FAILED`, and nothing else; no
register saves the position (R216) and control goes nowhere. -/
def raise (e : CodecError) (s : State) : State :=
  { s with outLen := 0, err := some e, status := .failed }

/-- `Start` (R191), which is also the only way out of FAILED (R222). -/
def startOp (s : State) : State :=
  { s with pos := 0, olen := 0, outLen := 0, err := none, status := .busy }

/-- `Finish` (R193): the one moment at which the result is exposed. -/
def finish (s : State) : State := { s with outLen := s.olen, status := .done }

/-- The end of every step that has its bytes: append the group, or fail with AllocationFailure and append none of it,
then move the cursor past the token (R133, R163). -/
def appendAndAdvance (bytes : List Byte) (size : Nat) (s : State) : Host.Outcome State Fault Refusal :=
  match emit bytes s with
  | .ok t => .next (advance size t)
  | .error e => .next (raise e s)

end Sys2Proof.Machine
end

