-- ==== Sys2Proof/Machine/EscapeTokens.lean ====
section
/-! DEFINITION. The meanings of the four control bytes of format ESC (R70, R73): Pattern, ZeroRun, CommonRun and the
reserved escape 0xF1. -/

namespace Sys2Proof.Machine

/-- PATTERN (R175). -/
def execPattern (count : BitVec 4) (unit : List Byte) (s : State) : Host.Outcome State Fault Refusal :=
  appendAndAdvance (expandPattern count unit).2 (expandPattern count unit).1 s

/-- ZERORUN (R174). -/
def execZeroRun (n : Byte) (s : State) : Host.Outcome State Fault Refusal :=
  appendAndAdvance (expandZeroRun n).2 (expandZeroRun n).1 s

/-- COMMONRUN (R177): InvalidPaletteIndex for `k` in 8..15, before the capacity test (R166). -/
def execCommonRun (n k : BitVec 4) (s : State) : Host.Outcome State Fault Refusal :=
  match expandCommonRun s.par.palette n k with
  | some (size, exp) => appendAndAdvance exp size s
  | none => .next (raise .invalidPaletteIndex s)

/-- RESERVED_F1 (R178): takes the UnknownEscape failure, reads nothing further, appends nothing. -/
def execReservedF1 (s : State) : Host.Outcome State Fault Refusal := .next (raise .unknownEscape s)

end Sys2Proof.Machine
end

