-- ==== Sys2Proof/Machine/ModeTokens.lean ====
section
/-! DEFINITION. The meanings of the four tokens of format ML (R70, R72): Literal, Nibble, Run, Delta. Each is the
part of `DecStep` (R163) after the token has been read whole; the availability test (R165) is made where it is read. -/

namespace Sys2Proof.Machine

/-- LITERAL (R170). -/
def execLiteral (bytes : List Byte) (s : State) : Host.Outcome State Fault Refusal :=
  appendAndAdvance (expandLiteral bytes).2 (expandLiteral bytes).1 s

/-- NIBBLE (R171). -/
def execNibble (n : BitVec 6) (packed : List Byte) (s : State) : Host.Outcome State Fault Refusal :=
  appendAndAdvance (expandNibble n packed).2 (expandNibble n packed).1 s

/-- RUN (R172). -/
def execRun (n : BitVec 6) (v : Byte) (s : State) : Host.Outcome State Fault Refusal :=
  appendAndAdvance (expandRun n v).2 (expandRun n v).1 s

/-- DELTA (R173). -/
def execDelta (n : BitVec 6) (start db : Byte) (s : State) : Host.Outcome State Fault Refusal :=
  appendAndAdvance (expandDelta n start db).2 (expandDelta n start db).1 s

end Sys2Proof.Machine
end

