-- ==== Sys2Proof/Machine/Dispatch.lean ====
section
/-! DEFINITION. Dispatch: one arm per token (R160). -/

namespace Sys2Proof.Machine

def exec (i : Instr) (s : State) : Host.Outcome State Fault Refusal :=
  match i with
  | .pattern count unit => Sys2Proof.Machine.execPattern count unit s
  | .zeroRun n => Sys2Proof.Machine.execZeroRun n s
  | .reservedF1 => Sys2Proof.Machine.execReservedF1 s
  | .commonRun n k => Sys2Proof.Machine.execCommonRun n k s
  | .literal bytes => Sys2Proof.Machine.execLiteral bytes s
  | .nibble n packed => Sys2Proof.Machine.execNibble n packed s
  | .run n v => Sys2Proof.Machine.execRun n v s
  | .delta n start db => Sys2Proof.Machine.execDelta n start db s

end Sys2Proof.Machine
end

