-- ==== Sys2Proof/Machine/Flags.lean ====
section
/-! DEFINITION. The condition flags. `STATUS` is the only one; no token writes a flag and the format has no condition
codes (R27, R163). Here are the numeric codes under which the registers are read (R24, R210). -/

namespace Sys2Proof.Machine

/-- 0 = COMPRESS, 1 = DECOMPRESS (R24). -/
def Op.code : Op → BitVec 1
  | .compress => 0
  | .decompress => 1

/-- 0 = IDLE, 1 = BUSY, 2 = DONE, 3 = FAILED (R24). -/
def Status.code : Status → BitVec 2
  | .idle => 0
  | .busy => 1
  | .done => 2
  | .failed => 3

/-- The codes of the five errors (R210). -/
def CodecError.code : CodecError → BitVec 3
  | .allocationFailure => 1
  | .truncated => 2
  | .invalidPaletteIndex => 3
  | .unknownEscape => 4
  | .fieldTruncated => 5

/-- The value of `ERR`; 0 when there is no error (R210). -/
def errCode : Option CodecError → BitVec 3
  | none => 0
  | some e => e.code

/-- BUSY is the one condition that gates the engine and the host's writes (R192, R246). -/
def State.isBusy (s : State) : Bool := s.status == .busy

end Sys2Proof.Machine
end

