-- ==== Sys2Proof/Machine/Engine.lean ====
section
/-! DEFINITION. The transitions of the two agents. The engine (R192): encoder step, decoder step, finishing
transition. The host (R190, R240 to R247): writes of `IN`, `IN_LEN` and `OP`, `START`, reset; and what it reads. -/

namespace Sys2Proof.Machine

/-! ## The engine -/

/-- `EncStep` (R133): select at the cursor, serialize, append, advance by the coverage. `r` is `IN[POS .. IN_LEN-1]`. -/
def encStep (r : List Byte) (s : State) : Host.Outcome State Fault Refusal :=
  match serialize s.par.palette (selectAt s.par.palette r) with
  | .error e => .next (raise e s)
  | .ok bytes => appendAndAdvance bytes (cov (selectAt s.par.palette r)) s

/-- `DecStep` (R163): read the token at the cursor, which may fail with Truncated (R165), and run it. `r` is
`IN[POS .. IN_LEN-1]`. -/
def decStep (r : List Byte) (s : State) : Host.Outcome State Fault Refusal :=
  match decodeToken r with
  | .ok (i, _) => exec i s
  | .error .truncated => .next (raise .truncated s)
  | .error .noControlByte => .fault .cursorPastInput

/-- One token: the encoder's step or the decoder's, as `OP` selects (R192, R25). -/
def tokenStep (s : State) : Host.Outcome State Fault Refusal :=
  match s.remaining with
  | none => .fault .inputByteMissing
  | some r =>
    match s.op with
    | .compress => encStep r s
    | .decompress => decStep r s

/-- The engine's turn (R192): exactly one transition is enabled while BUSY, none otherwise (R37). -/
def engineTurn (s : State) : Host.Outcome State Fault Refusal :=
  match s.status with
  | .busy =>
    if s.pos < s.inLen then tokenStep s
    else if s.pos = s.inLen then .next (finish s)
    else .fault .cursorPastInput
  | .idle => .fault .engineQuiescent
  | .done => .fault .engineQuiescent
  | .failed => .fault .engineQuiescent

/-! ## The host -/

/-- A host write of a register or of `IN`: the spec has no such move while BUSY (R246, U6). -/
def whenNotBusy (s t : State) : Host.Outcome State Fault Refusal :=
  if s.isBusy then .refused .hostWriteWhileBusy else .next t

/-- A host write of `IN[i]` (R32). -/
def hostWriteIn (i : Nat) (b : Byte) (s : State) : Host.Outcome State Fault Refusal :=
  if i < s.par.inCap then whenNotBusy s { s with inMem := s.inMem.write i b } else .refused .inIndexPastCapacity

/-- A host write of `IN_LEN`, LEN_W bits wide (R24). A value above `IN_CAP` is refused at `START` (U7). -/
def hostWriteInLen (n : Nat) (s : State) : Host.Outcome State Fault Refusal :=
  if n < 2 ^ lenW s.par then whenNotBusy s { s with inLen := n } else .refused .inLenTooWide

/-- A host write of `OP` (R24). -/
def hostWriteOp (o : Op) (s : State) : Host.Outcome State Fault Refusal := whenNotBusy s { s with op := o }

/-- `START` (R191): no effect at all while BUSY (U19); else enabled when `IN_LEN <= IN_CAP` (U7) and the host has
written every byte of its input (R245, U4). -/
def hostStart (s : State) : Host.Outcome State Fault Refusal :=
  if s.isBusy then .next s
  else if s.par.inCap < s.inLen then .refused .startPastCapacity
  else if s.input.isNone then .refused .startInputUnwritten
  else .next (startOp s)

/-- Reset, at any time (R240, R241). The host and its moves to come are not part of what is reset. -/
def hostReset (s : State) : State := { State.resetOf s.par with host := s.host }

/-- The turn of a host whose next move is `m` and whose later moves are `later` (R190). While it waits, the engine
takes its turn; a wait ends when `STATUS` is not BUSY. -/
def hostTurn (m : HostMove) (later : List HostMove) (s : State) : Host.Outcome State Fault Refusal :=
  match m with
  | .writeIn i b => hostWriteIn i b { s with host := later }
  | .writeInLen n => hostWriteInLen n { s with host := later }
  | .writeOp o => hostWriteOp o { s with host := later }
  | .start => hostStart { s with host := later }
  | .reset => .next (hostReset { s with host := later })
  | .yield => engineTurn { s with host := later }
  | .wait => if s.isBusy then engineTurn s else .next { s with host := later }

/-! ## What the host reads -/

/-- The five host-visible registers (R24). -/
inductive HostReg where
  | op | inLen | status | err | outLen
deriving DecidableEq, Repr

/-- A host read of a register, allowed at any time (R247). -/
def hostRead (s : State) : HostReg → Nat
  | .op => s.op.code.toNat
  | .inLen => s.inLen
  | .status => s.status.code.toNat
  | .err => (errCode s.err).toNat
  | .outLen => s.outLen

/-- A host read of `OUT[i]`: a value only while `STATUS == DONE` and for `i < OUT_LEN` (R247, R33, U3). -/
def hostReadOut (s : State) (i : Nat) : Option Byte :=
  if s.status = .done ∧ i < s.outLen then s.outMem.read i else none

/-- `OUT[0 .. OUT_LEN-1]`, the result of a finished operation (R190 (5), R193). -/
def hostResult (s : State) : Option (List Byte) :=
  if s.status = .done then s.outMem.readBytes 0 s.outLen else none

/-! ## Placing an instruction at the cursor -/

/-- The machine with an instruction word stored where the decoder reads its next token: a running DECOMPRESS whose
cursor stands at the word, with the longest token's length of stream from there, and no host move before it. -/
def placeWord (s : State) (nbits w : Nat) : State :=
  { s with
    op := .decompress
    status := .busy
    inLen := s.pos + longestToken
    inMem := s.inMem.writeBytes s.pos (wordBytes nbits w)
    host := [] }

end Sys2Proof.Machine
end

