-- ==== Sys2Proof/Safety.lean ====
section
/-! DEFINITION. What a good state is, what a finished step has done, and what a running operation has produced so far:
the terms the statements are written in. -/

namespace Sys2Proof.Machine

/-- The invariant of every state a run reaches (R7, R8, R22, R23, R24, R27, R28, R29, R32, R33, R245). -/
structure Inv (s : State) : Prop where
  /-- 0x64 is not in the palette (R8) -/
  palette      : s.par.admissible
  /-- `IN_LEN` fits its LEN_W bits (R24) -/
  inLenWidth   : s.inLen < 2 ^ lenW s.par
  /-- the cursor fits the input buffer (R22) -/
  posCap       : s.pos ≤ s.par.inCap
  /-- `0 <= OLEN <= OUT_CAP` (R23) -/
  olenCap      : s.olen ≤ s.par.outCap
  /-- `OUT_LEN` in 0 .. OUT_CAP (R24) -/
  outLenCap    : s.outLen ≤ s.par.outCap
  /-- the buffers keep their canonical form -/
  inForm       : s.inMem.wf
  outForm      : s.outMem.wf
  /-- `IN` has indexes 0 .. IN_CAP-1 only (R32) -/
  inBounds     : ∀ cell ∈ s.inMem, cell.1 < s.par.inCap
  /-- `OUT` has indexes 0 .. OUT_CAP-1 only (R33) -/
  outBounds    : ∀ cell ∈ s.outMem, cell.1 < s.par.outCap
  /-- `ERR` is non-zero exactly when FAILED (R28) -/
  errFailed    : s.err.isSome ↔ s.status = .failed
  /-- `OUT_LEN` is 0 unless DONE (R27, R29) -/
  outLenHidden : s.status ≠ .done → s.outLen = 0
  /-- `OUT_LEN` is the length of the result when DONE (R29, R193) -/
  outLenDone   : s.status = .done → s.outLen = s.olen
  /-- `POS <= IN_LEN <= IN_CAP` while BUSY (R22) -/
  busyCursor   : s.status = .busy → s.pos ≤ s.inLen ∧ s.inLen ≤ s.par.inCap
  /-- the whole input was written before `START` (R245) -/
  busyInput    : s.status = .busy → ∃ x, s.input = some x
  /-- `OUT[0 .. OLEN-1]` holds the bytes appended so far (R23) -/
  outWritten   : s.status = .busy ∨ s.status = .done → ∃ out, s.outMem.readBytes 0 s.olen = some out

/-- The engine of `s` is running a DECOMPRESS, the host leaves it the turn, and `IN[POS .. IN_LEN-1] = r` with at
least one byte left: `DecStep` is enabled (R163). -/
structure DecoderReady (s : State) (r : List Byte) : Prop where
  host   : s.host = []
  status : s.status = .busy
  op     : s.op = .decompress
  cursor : s.pos < s.inLen
  rest   : s.remaining = some r

/-- The same for a COMPRESS: `EncStep` is enabled (R133). -/
structure EncoderReady (s : State) (r : List Byte) : Prop where
  host   : s.host = []
  status : s.status = .busy
  op     : s.op = .compress
  cursor : s.pos < s.inLen
  rest   : s.remaining = some r

/-- `t` is `s` with the group `bytes` stored at `OUT[OLEN ..]`, `OLEN` advanced by its length and `POS` by `size`, and
nothing else changed: what a step that completes a token does (R133, R163). -/
structure Appended (s : State) (size : Nat) (bytes : List Byte) (t : State) : Prop where
  pos     : t.pos = s.pos + size
  olen    : t.olen = s.olen + bytes.length
  stored  : ∀ k b, bytes[k]? = some b → t.outMem.read (s.olen + k) = some b
  outside : ∀ a, a < s.olen ∨ s.olen + bytes.length ≤ a → t.outMem.read a = s.outMem.read a
  inMem   : ∀ a, t.inMem.read a = s.inMem.read a
  par     : t.par = s.par
  op      : t.op = s.op
  inLen   : t.inLen = s.inLen
  status  : t.status = s.status
  err     : t.err = s.err
  outLen  : t.outLen = s.outLen
  host    : t.host = s.host

/-- `t` is `s` after the failure entry with error `e`: three registers written, everything else unchanged (R220). -/
structure FailedWith (s : State) (e : CodecError) (t : State) : Prop where
  status  : t.status = .failed
  err     : t.err = some e
  outLen  : t.outLen = 0
  pos     : t.pos = s.pos
  olen    : t.olen = s.olen
  inMem   : ∀ a, t.inMem.read a = s.inMem.read a
  outMem  : ∀ a, t.outMem.read a = s.outMem.read a
  par     : t.par = s.par
  op      : t.op = s.op
  inLen   : t.inLen = s.inLen
  host    : t.host = s.host

/-- `i` is the instruction the layout of R74 gives the token, field by field (R142 to R148). Every field has its exact
value: a Nibble's values in order, the earlier one in the high nibble, and 0 in the pad of an odd number of values
(R85); the delta with its bias of 16 (R83); for a CommonRun the least palette index that holds the value (R8, R12). -/
def PackedAs (pal : Vector Byte 8) (i : Instr) : Token → Prop
  | .literal bytes => i = .literal bytes
  | .run v n => ∃ m : BitVec 6, m.toNat = n ∧ i = .run m v
  | .delta start d n => ∃ (m : BitVec 6) (db : Byte), m.toNat = n ∧ (db.toNat : Int) = d + 16 ∧ i = .delta m start db
  | .nibble values => ∃ (m : BitVec 6) (packed : List Byte),
      m.toNat = values.length ∧ packed.length = (values.length + 1) / 2 ∧ i = .nibble m packed ∧
      (∀ (j : Nat) (a : Byte), values[j]? = some a → ∃ b, packed[j / 2]? = some b ∧
        a.toNat = if j % 2 = 0 then b.toNat / 16 else b.toNat % 16) ∧
      (values.length % 2 = 1 → ∃ b, packed[values.length / 2]? = some b ∧ b.toNat % 16 = 0)
  | .zeroRun n => ∃ m : Byte, m.toNat = n ∧ i = .zeroRun m
  | .pattern unit count => ∃ c : BitVec 4, c.toNat = count ∧ i = .pattern c unit
  | .commonRun v n => ∃ m k : BitVec 4, m.toNat = n ∧ i = .commonRun m k ∧
      pal.toList[k.toNat]? = some v ∧ ∀ j, j < k.toNat → pal.toList[j]? ≠ some v

/-- `consumed` is a sequence of whole tokens, back to back, and `out` the concatenation of their expansions (R23,
R161). -/
inductive Expanded (pal : Vector Byte 8) : List Byte → List Byte → Prop where
  | nil : Expanded pal [] []
  | snoc {consumed out : List Byte} {i : Instr} {size : Nat} {exp : List Byte} :
      Expanded pal consumed out → i.wellFormed = true → expand pal i = .ok (size, exp) →
      Expanded pal (consumed ++ encode i) (out ++ exp)

/-- The selector's tokens cover `x` up to the cursor, and `out` is their serialization in emission order (R23,
R131). -/
inductive Packed (pal : Vector Byte 8) (x : List Byte) : Nat → List Byte → Prop where
  | nil : Packed pal x 0 []
  | snoc {pos : Nat} {out bytes : List Byte} :
      Packed pal x pos out → pos < x.length → serialize pal (select pal x pos) = .ok bytes →
      Packed pal x (pos + cov (select pal x pos)) (out ++ bytes)

/-- R23: while an operation runs on the input `x`, `OUT[0 .. OLEN-1]` is exactly what the tokens so far give. -/
def OutputPrefix (s : State) : Prop :=
  s.status = .busy → s.olen ≤ s.par.outCap ∧
    ∀ x, s.input = some x → ∃ out, s.outMem.readBytes 0 s.olen = some out ∧
      match s.op with
      | .compress => Packed s.par.palette x s.pos out
      | .decompress => Expanded s.par.palette (x.take s.pos) out

/-- The engine stands at the start of an operation `o` on the input `x` (R191), the host waits. -/
structure Started (o : Op) (x : List Byte) (s : State) : Prop where
  inv    : Inv s
  host   : s.host = []
  status : s.status = .busy
  op     : s.op = o
  pos    : s.pos = 0
  olen   : s.olen = 0
  input  : s.input = some x

/-- The operation ended in DONE and its result is `y` (R193). -/
def EndsDone (s : State) (y : List Byte) : Prop :=
  s.status = .done ∧ s.err = none ∧ s.outLen = y.length ∧ hostResult s = some y

/-- The operation ended in FAILED with error `e` and shows no byte (R194, R220). -/
def EndsFailed (s : State) (e : CodecError) : Prop :=
  s.status = .failed ∧ s.err = some e ∧ s.outLen = 0 ∧ hostResult s = none

end Sys2Proof.Machine
end

