-- ==== Sys2Proof/Certificates/Slice0/Obligations.lean ====
section
/-! DEFINITION. The statements about GA-CODEC, one definition each; OBLIGATIONS.json names their rules. Nothing is
proved here. Every statement quantifies over the parameters `IN_CAP`, `OUT_CAP` and `PALETTE` (R7). -/

open Sys2Proof Sys2Proof.Machine

/-! ## Reset and the invariants -/

/-- R240: the state after reset, for every instance. -/
def Obligations.ResetRegisterValues : Prop :=
  (∃ p, State.reset = State.resetOf p) ∧
  ∀ p : Params,
    (State.resetOf p).status = .idle ∧ (State.resetOf p).err = none ∧ (State.resetOf p).outLen = 0 ∧
    (State.resetOf p).op = .compress ∧ (State.resetOf p).inLen = 0 ∧ (State.resetOf p).pos = 0 ∧
    (State.resetOf p).olen = 0 ∧ (State.resetOf p).par = p ∧
    (∀ i, (State.resetOf p).inMem.read i = none ∧ (State.resetOf p).outMem.read i = none) ∧
    (∀ i, hostReadOut (State.resetOf p) i = none)

/-- R241: a reset abandons whatever runs; the state is that of R240, nothing of the operation is visible, and the
parameters are unaffected. -/
def Obligations.ResetAbandonsOperation : Prop :=
  ∀ (s : State) (later : List HostMove), s.host = .reset :: later →
    ∃ t, step s = .next t ∧ t = { State.resetOf s.par with host := later } ∧ ∀ i, hostReadOut t i = none

/-- Every instance with an admissible palette (R8) starts in a state that meets the invariant, and so does
`State.reset`. -/
def Obligations.ResetMeetsInvariant : Prop :=
  (∀ p : Params, p.admissible → Inv (State.resetOf p)) ∧ Inv State.reset

/-- The invariant is kept by every step, the engine's and the host's, from every state that meets it. -/
def Obligations.StepKeepsInvariant : Prop :=
  ∀ s t : State, Inv s → step s = .next t → Inv t

/-- R23: at every step boundary of a running operation `OLEN <= OUT_CAP` and `OUT[0 .. OLEN-1]` is exactly the
serialization of the tokens emitted so far (COMPRESS) or the concatenation of the expansions of the tokens consumed so
far (DECOMPRESS), in emission order; it holds after reset, and every step keeps it. -/
def Obligations.OutputIsExactlyTheTokensSoFar : Prop :=
  (∀ p : Params, OutputPrefix (State.resetOf p)) ∧
  ∀ s t : State, OutputPrefix s → step s = .next t → OutputPrefix t

/-! ## The host's moves and reads -/

/-- R191: `START`. While BUSY it has no effect at all. Otherwise, when the host has met its obligations (R191, R245),
the five registers take their start values and nothing else changes; a `START` past `IN_CAP` and one whose input was
not written whole are moves the model refuses. -/
def Obligations.StartBeginsOperation : Prop :=
  ∀ (s : State) (later : List HostMove), s.host = .start :: later →
    (s.status = .busy → step s = .next { s with host := later }) ∧
    (s.status ≠ .busy → s.inLen ≤ s.par.inCap →
      (∀ i, i < s.inLen → ∃ b, s.inMem.read i = some b) →
      ∃ t, step s = .next t ∧ t.pos = 0 ∧ t.olen = 0 ∧ t.outLen = 0 ∧ t.err = none ∧ t.status = .busy ∧
        t.inMem = s.inMem ∧ t.outMem = s.outMem ∧ t.op = s.op ∧ t.inLen = s.inLen ∧ t.par = s.par ∧
        t.host = later) ∧
    (s.status ≠ .busy → s.par.inCap < s.inLen → step s = .refused .startPastCapacity) ∧
    (s.status ≠ .busy → s.inLen ≤ s.par.inCap → (∃ i, i < s.inLen ∧ s.inMem.read i = none) →
      step s = .refused .startInputUnwritten)

/-- The host's writes: of `IN[i]`, `IN_LEN`, `OP`, each into its own place and only while not BUSY (R24, R32, R246); a
write outside the spec is a move the model refuses by name (the model's choice, log entry 6). That a value of `IN_LEN`
above `IN_CAP` that fits LEN_W bits is taken is the model's choice too (log entry 7): R24 lists 0 to IN_CAP as the legal
values. -/
def Obligations.HostWritesOnlyWhileNotBusy : Prop :=
  ∀ (s : State) (later : List HostMove),
    (∀ i b, s.host = .writeIn i b :: later → i < s.par.inCap →
      (s.status = .busy → step s = .refused .hostWriteWhileBusy) ∧
      (s.status ≠ .busy → ∃ t, step s = .next t ∧ t = { s with host := later, inMem := t.inMem } ∧
        t.inMem.read i = some b ∧ ∀ a, a ≠ i → t.inMem.read a = s.inMem.read a)) ∧
    (∀ i b, s.host = .writeIn i b :: later → s.par.inCap ≤ i → step s = .refused .inIndexPastCapacity) ∧
    (∀ n, s.host = .writeInLen n :: later → 2 ^ lenW s.par ≤ n → step s = .refused .inLenTooWide) ∧
    (∀ n, s.host = .writeInLen n :: later → n < 2 ^ lenW s.par →
      (s.status = .busy → step s = .refused .hostWriteWhileBusy) ∧
      (s.status ≠ .busy → step s = .next { s with host := later, inLen := n })) ∧
    (∀ o, s.host = .writeOp o :: later →
      (s.status = .busy → step s = .refused .hostWriteWhileBusy) ∧
      (s.status ≠ .busy → step s = .next { s with host := later, op := o }))

/-- R247: the five registers read as they are at any time, in every state. In every state that meets the invariant
`OUT[i]` has a value for the host only while DONE and for `i < OUT_LEN`, and then it is the byte in `OUT`; while BUSY
`STATUS`, `ERR`, `OUT_LEN` read as BUSY, 0, 0. -/
def Obligations.HostReadsOutputOnlyWhenDone : Prop :=
  (∀ s : State,
    hostRead s .op = s.op.code.toNat ∧ hostRead s .inLen = s.inLen ∧ hostRead s .status = s.status.code.toNat ∧
    hostRead s .err = (errCode s.err).toNat ∧ hostRead s .outLen = s.outLen) ∧
  ∀ s : State, Inv s →
    (∀ i, (∃ b, hostReadOut s i = some b) ↔ s.status = .done ∧ i < s.outLen) ∧
    (∀ i b, hostReadOut s i = some b → s.outMem.read i = some b) ∧
    (s.status = .busy → hostRead s .status = 1 ∧ hostRead s .err = 0 ∧ hostRead s .outLen = 0) ∧
    (s.op = .compress → hostRead s .op = 0) ∧ (s.op = .decompress → hostRead s .op = 1)

/-- The model's own moves (log entry 4): a waiting host leaves the turn to the engine while BUSY and is done waiting
otherwise; a host that yields leaves it one turn. -/
def Obligations.WaitingHostLeavesTurnToEngine : Prop :=
  ∀ (s : State) (later : List HostMove),
    (s.host = .wait :: later → (s.status = .busy → step s = engineTurn s) ∧
      (s.status ≠ .busy → step s = .next { s with host := later })) ∧
    (s.host = .yield :: later → step s = engineTurn { s with host := later })

/-- R24, R210: the codes under which the host reads `OP`, `STATUS` and `ERR`. -/
def Obligations.RegisterCodes : Prop :=
  (Op.compress.code = 0 ∧ Op.decompress.code = 1) ∧
  (Status.idle.code = 0 ∧ Status.busy.code = 1 ∧ Status.done.code = 2 ∧ Status.failed.code = 3) ∧
  (errCode none = 0 ∧ errCode (some .allocationFailure) = 1 ∧ errCode (some .truncated) = 2 ∧
    errCode (some .invalidPaletteIndex) = 3 ∧ errCode (some .unknownEscape) = 4 ∧
    errCode (some .fieldTruncated) = 5)

/-! ## The engine -/

/-- R37, R192: the engine has no step in IDLE, DONE and FAILED, and only there does it answer so. -/
def Obligations.EngineStepsOnlyWhileBusy : Prop :=
  ∀ s : State, s.host = [] → (step s = .fault .engineQuiescent ↔ s.status ≠ .busy)

/-- R193: the finishing transition. -/
def Obligations.FinishExposesResult : Prop :=
  ∀ s : State, s.host = [] → s.status = .busy → s.pos = s.inLen →
    ∃ t, step s = .next t ∧ t = { s with outLen := s.olen, status := .done }

/-- R192, R164, R134: a running operation in a state that meets the invariant always has its transition, and every
transition advances the cursor within the input or ends the operation. -/
def Obligations.BusyEngineAlwaysProgresses : Prop :=
  ∀ s : State, Inv s → s.host = [] → s.status = .busy →
    ∃ t, step s = .next t ∧
      ((t.status = .busy ∧ s.pos < t.pos ∧ t.pos ≤ t.inLen) ∨
       (t.status = .failed ∧ s.pos < s.inLen) ∨ (t.status = .done ∧ s.pos = s.inLen))

/-- R27: who writes `STATUS`: START (to BUSY), the finishing transition (BUSY to DONE), the failure entry (BUSY to
FAILED), and reset (to IDLE); no other step changes it. -/
def Obligations.StatusHasFourWriters : Prop :=
  ∀ s t : State, step s = .next t → t.status ≠ s.status →
    (∃ later, s.host = .start :: later ∧ s.status ≠ .busy ∧ t.status = .busy) ∨
    (∃ later, s.host = .reset :: later ∧ t.status = .idle) ∨
    (s.status = .busy ∧ s.pos = s.inLen ∧ t.status = .done ∧ t.outLen = s.olen) ∨
    (s.status = .busy ∧ s.pos < s.inLen ∧ t.status = .failed ∧ ∃ e, FailedWith { s with host := t.host } e t)

/-- R32, R33, R60 (2), R63: the engine never writes `IN`, `IN_LEN` or `OP` and writes `OUT` only behind what it has
appended: no byte below `OLEN` changes, none at or above the new `OLEN` does. -/
def Obligations.EngineOnlyAppendsToOutput : Prop :=
  ∀ s t : State, s.host = [] → step s = .next t →
    (∀ a, t.inMem.read a = s.inMem.read a) ∧ t.inLen = s.inLen ∧ t.op = s.op ∧ s.olen ≤ t.olen ∧
    (∀ a, a < s.olen ∨ t.olen ≤ a → t.outMem.read a = s.outMem.read a)

/-- R33, R252: the engine never reads `OUT`. With any other contents `m` of `OUT` its step is the same: every register
is, the bytes it appends are the same bytes, and every other byte of `OUT` is as `m` has it. -/
def Obligations.EngineNeverReadsOutput : Prop :=
  ∀ (s : State) (m : Memory), s.host = [] →
    match step s, step { s with outMem := m } with
    | .next t, .next t' =>
      t' = { t with outMem := t'.outMem } ∧
      (∀ a, s.olen ≤ a → a < t.olen → t'.outMem.read a = t.outMem.read a) ∧
      (∀ a, a < s.olen ∨ t.olen ≤ a → t'.outMem.read a = m.read a)
    | .fault f, .fault f' => f = f'
    | _, _ => False

/-- R26, R52: the engine never reads `IN[i]` for `i >= IN_LEN`: with any other bytes there its step is the same, but
for those bytes. -/
def Obligations.EngineNeverReadsPastInput : Prop :=
  ∀ (s : State) (m : Memory), s.host = [] → (∀ i, i < s.inLen → m.read i = s.inMem.read i) →
    match step s, step { s with inMem := m } with
    | .next t, .next t' => t' = { t with inMem := m }
    | .fault f, .fault f' => f = f'
    | _, _ => False

/-- R7, R30: no step of either agent changes the palette or a capacity. -/
def Obligations.ParametersNeverChange : Prop :=
  ∀ s t : State, step s = .next t → t.par = s.par

/-- R220: when an engine step ends in FAILED it has written exactly `OUT_LEN`, `ERR` and `STATUS`; `OUT`, `OLEN` and
`POS` are as before the step; the host reads no byte of `OUT`, and the engine has no further transition. -/
def Obligations.FailureEntryWritesThreeRegisters : Prop :=
  (∀ (e : CodecError) (s : State), FailedWith s e (raise e s)) ∧
  ∀ s t : State, s.host = [] → step s = .next t → t.status = .failed →
    (∃ e, FailedWith s e t) ∧ (∀ i, hostReadOut t i = none) ∧ step t = .fault .engineQuiescent

/-! ## Encodings -/

/-- Decoding the bytes of any well-formed instruction, whatever follows them in the stream, gives it back with every
operand, and leaves exactly what follows. -/
def Obligations.DecodeOfEncodeIsIdentity : Prop :=
  ∀ (i : Instr) (rest : List Byte), i.wellFormed = true → decodeToken (encode i ++ rest) = .ok (i, rest)

/-- The other direction: what the decoder accepts is well formed, and its encoding is the bytes it was read from. -/
def Obligations.EncodeOfDecodeIsIdentity : Prop :=
  ∀ (bytes rest : List Byte) (i : Instr), decodeToken bytes = .ok (i, rest) →
    i.wellFormed = true ∧ encode i ++ rest = bytes

/-- R88: the control-byte map, all 256 values in order, with the length each carries. -/
def Obligations.ControlByteMap : Prop :=
  ∀ c : Byte,
    (c.toNat ≤ 0x3F → rowOf c = .literal ∧ (lengthField c).toNat = c.toNat) ∧
    (0x40 ≤ c.toNat → c.toNat ≤ 0x7F → rowOf c = .nibble ∧ (lengthField c).toNat = c.toNat - 0x40) ∧
    (0x80 ≤ c.toNat → c.toNat ≤ 0xBF → rowOf c = .run ∧ (lengthField c).toNat = c.toNat - 0x80) ∧
    (0xC0 ≤ c.toNat → c.toNat ≤ 0xDF → rowOf c = .delta ∧ (lengthField c).toNat = c.toNat - 0xC0) ∧
    (c.toNat = 0xE0 → rowOf c = .pattern) ∧
    (0xE1 ≤ c.toNat → c.toNat ≤ 0xEF → rowOf c = .delta ∧ (lengthField c).toNat = c.toNat - 0xC0) ∧
    (c.toNat = 0xF0 → rowOf c = .zeroRun) ∧
    (c.toNat = 0xF1 → rowOf c = .reservedF1) ∧
    (c.toNat = 0xF2 → rowOf c = .commonRun) ∧
    (0xF3 ≤ c.toNat → rowOf c = .delta ∧ (lengthField c).toNat = c.toNat - 0xC0)

/-- R88: every byte value is accepted by exactly one row of the opcode table, and it is the row the decoder takes. -/
def Obligations.EveryControlByteHasExactlyOneRow : Prop :=
  ∀ c : Byte, ((opcodeTable.filter fun r => r.accepts c).map fun r => r.row) = [rowOf c]

/-- Words written out from the layouts of R74 (the examples of R142 to R148 and R177) decode to the instructions they
stand for. -/
def Obligations.SpecWordsDecode : Prop :=
  decodeToken [0x02, 0x03, 0x74] = .ok (.literal [0x03, 0x74], []) ∧
  decodeToken [0x45, 0x1F, 0x2E, 0x30, 0x99] = .ok (.nibble 5 [0x1F, 0x2E, 0x30], [0x99]) ∧
  decodeToken [0x84, 0x64] = .ok (.run 4 0x64, []) ∧
  decodeToken [0xC5, 0x10, 0x13] = .ok (.delta 5 0x10 0x13, []) ∧
  decodeToken [0xE1, 0x20, 0x13] = .ok (.delta 33 0x20 0x13, []) ∧
  decodeToken [0xF0, 0xFF] = .ok (.zeroRun 255, []) ∧
  decodeToken [0xE0, 0x2A, 0xAB, 0xCD] = .ok (.pattern 10 [0xAB, 0xCD], []) ∧
  decodeToken [0xF2, 0x32] = .ok (.commonRun 3 2, []) ∧
  decodeToken [0xF1, 0x83] = .ok (.reservedF1, [0x83])

/-! ## Running an instruction -/

/-- R163, R22: when the bytes at the cursor decode to an instruction, a step of a running DECOMPRESS is `exec` of it in
that same state (the cursor still at its control byte). -/
def Obligations.StepRunsDecodedInstruction : Prop :=
  ∀ (s : State) (r rest : List Byte) (i : Instr),
    DecoderReady s r → decodeToken r = .ok (i, rest) → step s = exec i s

/-- R163, R166: what `exec` does for every token, in terms of its size and expansion: an error of its own rule first,
then the capacity test, then the append and the advance by the token's size, which is the length of its encoding. No
flag is written, and `IN` is not. -/
def Obligations.ExecFollowsDecStep : Prop :=
  ∀ (i : Instr) (s : State), i.wellFormed = true →
    (∀ e, expand s.par.palette i = .error e → ∃ t, exec i s = .next t ∧ FailedWith s e t) ∧
    (∀ size exp, expand s.par.palette i = .ok (size, exp) →
      size = (encode i).length ∧
      (s.olen + exp.length ≤ s.par.outCap → ∃ t, exec i s = .next t ∧ Appended s size exp t) ∧
      (s.par.outCap < s.olen + exp.length → ∃ t, exec i s = .next t ∧ FailedWith s .allocationFailure t))

/-- R170: Literal. Control bytes 0x00 to 0x3F; Truncated when fewer than n bytes follow; else the n bytes are appended
unchanged and 1 + n bytes consumed. -/
def Obligations.LiteralPassesBytesThrough : Prop :=
  (∀ (s : State) (c : Byte) (rest : List Byte), DecoderReady s (c :: rest) → c.toNat ≤ 0x3F →
    (c.toNat ≤ rest.length → step s = exec (.literal (rest.take c.toNat)) s) ∧
    (rest.length < c.toNat → ∃ t, step s = .next t ∧ FailedWith s .truncated t)) ∧
  ∀ (bytes : List Byte) (s : State), s.olen + bytes.length ≤ s.par.outCap →
    ∃ t, exec (.literal bytes) s = .next t ∧ Appended s (1 + bytes.length) bytes t

/-- R171: Nibble. Control bytes 0x40 to 0x7F; ceil(n/2) trailing bytes; value i is the high nibble of trailing byte
i div 2 for even i and its low nibble for odd i. -/
def Obligations.NibbleUnpacksHighNibbleFirst : Prop :=
  (∀ (s : State) (c : Byte) (rest : List Byte), DecoderReady s (c :: rest) → 0x40 ≤ c.toNat → c.toNat ≤ 0x7F →
    ((c.toNat - 0x40 + 1) / 2 ≤ rest.length →
      step s = exec (.nibble (BitVec.ofNat 6 (c.toNat - 0x40)) (rest.take ((c.toNat - 0x40 + 1) / 2))) s) ∧
    (rest.length < (c.toNat - 0x40 + 1) / 2 → ∃ t, step s = .next t ∧ FailedWith s .truncated t)) ∧
  ∀ (n : BitVec 6) (packed : List Byte) (s : State), packed.length = (n.toNat + 1) / 2 →
    s.olen + n.toNat ≤ s.par.outCap →
    ∃ exp t, exec (.nibble n packed) s = .next t ∧ Appended s (1 + (n.toNat + 1) / 2) exp t ∧
      exp.length = n.toNat ∧
      ∀ i, i < n.toNat → ∃ b, packed[i / 2]? = some b ∧
        exp[i]? = some (if i % 2 = 0 then BitVec.ofNat 8 (b.toNat / 16) else BitVec.ofNat 8 (b.toNat % 16))

/-- R172: Run. Control bytes 0x80 to 0xBF; one trailing byte, appended n times; two bytes consumed. -/
def Obligations.RunRepeatsItsValue : Prop :=
  (∀ (s : State) (c : Byte) (rest : List Byte), DecoderReady s (c :: rest) → 0x80 ≤ c.toNat → c.toNat ≤ 0xBF →
    (∀ v more, rest = v :: more → step s = exec (.run (BitVec.ofNat 6 (c.toNat - 0x80)) v) s) ∧
    (rest = [] → ∃ t, step s = .next t ∧ FailedWith s .truncated t)) ∧
  ∀ (n : BitVec 6) (v : Byte) (s : State), s.olen + n.toNat ≤ s.par.outCap →
    ∃ t, exec (.run n v) s = .next t ∧ Appended s 2 (List.replicate n.toNat v) t

/-- R173: Delta. Control bytes 0xC0 to 0xFF but the four sentinels; two trailing bytes; the first value is the start
byte unchanged, each later one is (previous + d) mod 128 with d = delta byte - 16; three bytes consumed. -/
def Obligations.DeltaExpandsProgression : Prop :=
  (∀ (s : State) (c : Byte) (rest : List Byte), DecoderReady s (c :: rest) → 0xC0 ≤ c.toNat →
    c ≠ 0xE0 → c ≠ 0xF0 → c ≠ 0xF1 → c ≠ 0xF2 →
    (∀ start db more, rest = start :: db :: more →
      step s = exec (.delta (BitVec.ofNat 6 (c.toNat - 0xC0)) start db) s) ∧
    (rest.length < 2 → ∃ t, step s = .next t ∧ FailedWith s .truncated t)) ∧
  ∀ (n : BitVec 6) (start db : Byte) (s : State), s.olen + n.toNat ≤ s.par.outCap →
    ∃ exp t, exec (.delta n start db) s = .next t ∧ Appended s 3 exp t ∧ exp.length = n.toNat ∧
      (0 < n.toNat → exp[0]? = some start) ∧
      ∀ i a b, exp[i]? = some a → exp[i + 1]? = some b →
        (b.toNat : Int) = ((a.toNat : Int) + ((db.toNat : Int) - 16)) % 128

/-- R174: ZeroRun. Control byte 0xF0; the count byte's number of zero bytes; two bytes consumed. -/
def Obligations.ZeroRunAppendsZeros : Prop :=
  (∀ (s : State) (rest : List Byte), DecoderReady s (0xF0 :: rest) →
    (∀ n more, rest = n :: more → step s = exec (.zeroRun n) s) ∧
    (rest = [] → ∃ t, step s = .next t ∧ FailedWith s .truncated t)) ∧
  ∀ (n : Byte) (s : State), s.olen + n.toNat ≤ s.par.outCap →
    ∃ t, exec (.zeroRun n) s = .next t ∧ Appended s 2 (List.replicate n.toNat 0) t

/-- R175, R176: Pattern. Control byte 0xE0; Truncated without the info byte, or with fewer than len bytes after it;
else the unit repeated count times, 2 + len bytes consumed. -/
def Obligations.PatternRepeatsItsUnit : Prop :=
  (∀ (s : State) (rest : List Byte), DecoderReady s (0xE0 :: rest) →
    (rest = [] → ∃ t, step s = .next t ∧ FailedWith s .truncated t) ∧
    (∀ info more, rest = info :: more →
      (info.toNat / 16 ≤ more.length →
        step s = exec (.pattern (BitVec.ofNat 4 (info.toNat % 16)) (more.take (info.toNat / 16))) s) ∧
      (more.length < info.toNat / 16 → ∃ t, step s = .next t ∧ FailedWith s .truncated t))) ∧
  ∀ (count : BitVec 4) (unit : List Byte) (s : State), s.olen + unit.length * count.toNat ≤ s.par.outCap →
    ∃ exp t, exec (.pattern count unit) s = .next t ∧ Appended s (2 + unit.length) exp t ∧
      exp.length = unit.length * count.toNat ∧ ∀ i, i < exp.length → exp[i]? = unit[i % unit.length]?

/-- R177, R213: CommonRun. Control byte 0xF2; n copies of `PALETTE[k]` for k in 0..7; InvalidPaletteIndex for k in
8..15 whatever n is and whatever room there is. -/
def Obligations.CommonRunReadsPalette : Prop :=
  (∀ (s : State) (rest : List Byte), DecoderReady s (0xF2 :: rest) →
    (rest = [] → ∃ t, step s = .next t ∧ FailedWith s .truncated t) ∧
    (∀ info more, rest = info :: more →
      step s = exec (.commonRun (BitVec.ofNat 4 (info.toNat / 16)) (BitVec.ofNat 4 (info.toNat % 16))) s)) ∧
  ∀ (n k : BitVec 4) (s : State),
    (∀ h : k.toNat < 8, s.olen + n.toNat ≤ s.par.outCap →
      ∃ t, exec (.commonRun n k) s = .next t ∧
        Appended s 2 (List.replicate n.toNat (s.par.palette[k.toNat]'h)) t) ∧
    (8 ≤ k.toNat → ∃ t, exec (.commonRun n k) s = .next t ∧ FailedWith s .invalidPaletteIndex t)

/-- R178: the reserved escape 0xF1 ends the operation with UnknownEscape, also as the last byte of the stream; nothing
is appended and the cursor stays. -/
def Obligations.ReservedEscapeRaisesUnknownEscape : Prop :=
  (∀ s : State, ∃ t, exec .reservedF1 s = .next t ∧ FailedWith s .unknownEscape t) ∧
  ∀ (s : State) (rest : List Byte), DecoderReady s (0xF1 :: rest) →
    ∃ t, step s = .next t ∧ FailedWith s .unknownEscape t

/-- R166: the order of the checks: UnknownEscape, then Truncated, then InvalidPaletteIndex, each whatever room there
is in `OUT`. -/
def Obligations.FirstFailingCheckDecides : Prop :=
  ∀ (s : State) (c : Byte) (rest : List Byte), DecoderReady s (c :: rest) →
    (c = 0xF1 → ∃ t, step s = .next t ∧ FailedWith s .unknownEscape t) ∧
    (c ≠ 0xF1 → (∀ i more, decodeToken (c :: rest) ≠ .ok (i, more)) →
      ∃ t, step s = .next t ∧ FailedWith s .truncated t) ∧
    (∀ info more, c = 0xF2 → rest = info :: more → 8 ≤ info.toNat % 16 →
      ∃ t, step s = .next t ∧ FailedWith s .invalidPaletteIndex t)

/-! ## The evaluators -/

/-- R102: ZeroRun proposes the number of zeros that begin at the position, at most 255, when there are at least 3. -/
def Obligations.ZeroRunCountsZeros : Prop :=
  ∀ (x : List Byte) (pos n : Nat), pos < x.length →
    (zeroRunEval x pos = some (.zeroRun n) ↔
      3 ≤ n ∧ n ≤ 255 ∧ (∀ k, k < n → x[pos + k]? = some 0) ∧ (n < 255 → x[pos + n]? ≠ some 0)) ∧
    (zeroRunEval x pos ≠ none → ∃ m, zeroRunEval x pos = some (.zeroRun m))

/-- R104 to R107: DeltaSequence. Nothing is proposed for the last byte of the input. The step is the integer difference of the first two bytes; the covered bytes obey the
recurrence; the length is the natural one, shortened to 31 or 47 where it would be a sentinel. -/
def Obligations.DeltaSequenceFollowsRecurrence : Prop :=
  (∀ (x : List Byte) (pos : Nat), x.length ≤ pos + 1 → deltaEval x pos = none) ∧
  ∀ (x : List Byte) (pos n : Nat) (s b : Byte) (d : Int), x[pos]? = some s → x[pos + 1]? = some b →
    d = (b.toNat : Int) - (s.toNat : Int) →
    (∀ natural : Nat, 1 ≤ natural → natural ≤ 63 →
      (∀ k u v, k + 1 < natural → x[pos + k]? = some u → x[pos + k + 1]? = some v →
        (v.toNat : Int) = ((u.toNat : Int) + d) % 128) →
      pos + natural ≤ x.length →
      (natural < 63 → ∀ u v, x[pos + natural - 1]? = some u → x[pos + natural]? = some v →
        (v.toNat : Int) ≠ ((u.toNat : Int) + d) % 128) →
      (deltaEval x pos = some (.delta s d n) ↔
        -15 ≤ d ∧ d ≤ 15 ∧ d ≠ 0 ∧ 3 ≤ natural ∧
        n = (if natural = 32 then 31 else if 48 ≤ natural ∧ natural ≤ 50 then 47 else natural))) ∧
    (deltaEval x pos ≠ none → ∃ m, deltaEval x pos = some (.delta s d m))

/-- R110: NibblePack proposes the bytes below 16 that begin at the position, at most 62, when there are at least 4. -/
def Obligations.NibblePackTakesSmallBytes : Prop :=
  ∀ (x : List Byte) (pos : Nat) (values : List Byte), pos < x.length →
    (nibbleEval x pos = some (.nibble values) ↔
      4 ≤ values.length ∧ values.length ≤ 62 ∧ (∀ k v, values[k]? = some v → x[pos + k]? = some v ∧ v.toNat < 16) ∧
      (values.length < 62 → ∀ v, x[pos + values.length]? = some v → 16 ≤ v.toNat)) ∧
    (nibbleEval x pos ≠ none → ∃ v, nibbleEval x pos = some (.nibble v))

/-- R112 to R115: PatternMatch proposes the unit length of 2..15 with the highest score `count*p - (2+p)`, the smallest
among equals, when that score is positive; the count is the number of consecutive exact repeats, at most 15. -/
def Obligations.PatternMatchMaximisesScore : Prop :=
  ∀ (x : List Byte) (pos : Nat),
    (∀ unit count, patternEval x pos = some (.pattern unit count) →
      ∃ p, 2 ≤ p ∧ p ≤ 15 ∧ unit = (x.drop pos).take p ∧ count = patternCount (x.drop pos) p ∧
        pos + 2 * p ≤ x.length ∧ 2 ≤ count ∧ 0 < (count : Int) * p - (2 + p) ∧
        (∀ q : Nat, 2 ≤ q → q ≤ 15 → pos + 2 * q ≤ x.length →
          (patternCount (x.drop pos) q : Int) * q - (2 + q) ≤ (count : Int) * p - (2 + p)) ∧
        (∀ q : Nat, 2 ≤ q → q < p → pos + 2 * q ≤ x.length →
          (patternCount (x.drop pos) q : Int) * q - (2 + q) < (count : Int) * p - (2 + p))) ∧
    (patternEval x pos ≠ none → ∃ unit count, patternEval x pos = some (.pattern unit count)) ∧
    (patternEval x pos = none → ∀ q : Nat, 2 ≤ q → q ≤ 15 → pos + 2 * q ≤ x.length →
      (patternCount (x.drop pos) q : Int) * q - (2 + q) ≤ 0)

/-- R112, R113, R114: the count of a candidate unit: the repeats lie wholly inside the input, each equals the unit,
and counting stops at 15 or at the first unit that is not a repeat. -/
def Obligations.PatternCountCountsRepeats : Prop :=
  ∀ (r : List Byte) (p : Nat), 1 ≤ p → p ≤ r.length →
    1 ≤ patternCount r p ∧ patternCount r p ≤ 15 ∧ patternCount r p * p ≤ r.length ∧
    (∀ c, c < patternCount r p → (r.drop (c * p)).take p = r.take p) ∧
    (patternCount r p < 15 → (patternCount r p + 1) * p ≤ r.length →
      (r.drop (patternCount r p * p)).take p ≠ r.take p)

/-- R117, R118: RunLength proposes the run of equal bytes that begins at the position, at most 63, when it is at least
3: CommonRun exactly when the value is a palette entry and the run is at most 15, else Run. -/
def Obligations.RunLengthChoosesCommonRun : Prop :=
  ∀ (pal : Vector Byte 8) (x : List Byte) (pos n : Nat) (v : Byte), x[pos]? = some v →
    n ≤ 63 → (∀ k, k < n → x[pos + k]? = some v) → (n < 63 → x[pos + n]? ≠ some v) →
    runEval pal x pos =
      if n < 3 then none
      else if v ∈ pal.toList ∧ n ≤ 15 then some (.commonRun v n)
      else some (.run v n)

/-- R120 to R122: the literal fallback takes the byte at the cursor and then bytes up to the first position where three
equal bytes begin or DeltaSequence accepts, the end of the input, or 63 bytes. -/
def Obligations.LiteralStopsAtOpportunity : Prop :=
  (∀ (x : List Byte) (q : Nat), run3At (x.drop q) = true ↔
    ∃ b, x[q]? = some b ∧ x[q + 1]? = some b ∧ x[q + 2]? = some b) ∧
  ∀ (x : List Byte) (pos : Nat), pos < x.length →
    ∃ n, literalEval x pos = .literal ((x.drop pos).take n) ∧ 1 ≤ n ∧ n ≤ 63 ∧ pos + n ≤ x.length ∧
      (∀ k, 1 ≤ k → k < n → run3At (x.drop (pos + k)) = false ∧ deltaEval x (pos + k) = none) ∧
      (n < 63 → pos + n < x.length → run3At (x.drop (pos + n)) = true ∨ deltaEval x (pos + n) ≠ none)

/-- R130, R132: the sequential selector and the priority encoder over the five evaluators choose the same token; the
first evaluator that accepts wins. -/
def Obligations.SelectorIsPriorityEncoder : Prop :=
  ∀ (pal : Vector Byte 8) (x : List Byte) (pos : Nat),
    select pal x pos = priorityEncode
      [zeroRunEval x pos, deltaEval x pos, nibbleEval x pos, patternEval x pos, runEval pal x pos] (literalEval x pos)

/-- R100, R135: the selected token covers at least one byte, no byte past the end, and expands to exactly the bytes it
covers, whatever their values (R108). -/
def Obligations.SelectedTokenExpandsToItsBytes : Prop :=
  ∀ (pal : Vector Byte 8) (x : List Byte) (pos : Nat), pos < x.length →
    1 ≤ cov (select pal x pos) ∧ pos + cov (select pal x pos) ≤ x.length ∧
    covered (select pal x pos) = (x.drop pos).take (cov (select pal x pos))

/-- R150, R107, R116, R119: every selected token has its fields in the "encoder produces" ranges of R75 (a Run or
CommonRun has 3 to 5 bytes, never of value 0; a Delta has none of the shadowed lengths) and so passes the packer's
field check. -/
def Obligations.SelectedTokenFieldRanges : Prop :=
  ∀ (pal : Vector Byte 8) (x : List Byte) (pos : Nat), pos < x.length →
    fieldsFit pal (select pal x pos) = true ∧
    match select pal x pos with
    | .literal bytes => 1 ≤ bytes.length ∧ bytes.length ≤ 63
    | .run v n => 3 ≤ n ∧ n ≤ 5 ∧ v ≠ 0
    | .commonRun v n => 3 ≤ n ∧ n ≤ 5 ∧ v ≠ 0 ∧ v ∈ pal.toList
    | .zeroRun n => 3 ≤ n ∧ n ≤ 255
    | .delta _ d n => 3 ≤ n ∧ n ≤ 63 ∧ n ≠ 32 ∧ n ≠ 48 ∧ n ≠ 49 ∧ n ≠ 50 ∧ -15 ≤ d ∧ d ≤ 15 ∧ d ≠ 0
    | .nibble values => 4 ≤ values.length ∧ values.length ≤ 62 ∧ ∀ v ∈ values, v.toNat ≤ 15
    | .pattern unit count => 2 ≤ unit.length ∧ unit.length ≤ 15 ∧ 2 ≤ count ∧ count ≤ 15

/-! ## The packer -/

/-- R141: the field check, token by token, and FieldTruncated exactly where it fails. -/
def Obligations.FieldCheckGuardsEveryField : Prop :=
  ∀ (pal : Vector Byte 8) (t : Token),
    (serialize pal t = .error .fieldTruncated ↔ fieldsFit pal t = false) ∧
    (fieldsFit pal t = true ↔
      match t with
      | .literal bytes => bytes.length ≤ 63
      | .run _ n => n ≤ 63
      | .delta _ d n => n ≤ 63 ∧ n ∉ [32, 48, 49, 50] ∧ 0 ≤ d + 16 ∧ d + 16 ≤ 255
      | .nibble values => values.length ≤ 63 ∧ ∀ v ∈ values, v.toNat ≤ 15
      | .zeroRun n => n ≤ 255
      | .pattern unit count => unit.length ≤ 15 ∧ count ≤ 15
      | .commonRun v n => v ∈ pal.toList ∧ n ≤ 15)

/-- R140 to R148 with R170 to R177: the bytes of every token that passes the field check are the encoding of the
well-formed instruction that the token's own packing rule names, with each field at its exact value (`PackedAs`), and
that instruction expands, under the same palette, to exactly the bytes the token stands for. -/
def Obligations.PackedTokenExpandsBack : Prop :=
  ∀ (pal : Vector Byte 8) (t : Token) (bytes : List Byte), serialize pal t = .ok bytes →
    ∃ i : Instr, PackedAs pal i t ∧ i.wellFormed = true ∧ encode i = bytes ∧
      expand pal i = .ok (bytes.length, covered t)

/-- The packing examples of R142 to R148, under the example palette where a CommonRun occurs. -/
def Obligations.PackerExamples : Prop :=
  ∀ pal : Vector Byte 8, pal = #v[0xFF, 0x00, 0x20, 0x30, 0x7F, 0x80, 0x0A, 0x41] →
    serialize pal (.literal [0x03, 0x74]) = .ok [0x02, 0x03, 0x74] ∧
    serialize pal (.run 0x64 4) = .ok [0x84, 0x64] ∧
    serialize pal (.delta 0x10 3 5) = .ok [0xC5, 0x10, 0x13] ∧
    serialize pal (.delta 0x14 (-5) 7) = .ok [0xC7, 0x14, 0x0B] ∧
    serialize pal (.nibble [1, 15, 2, 14, 3]) = .ok [0x45, 0x1F, 0x2E, 0x30] ∧
    serialize pal (.zeroRun 5) = .ok [0xF0, 0x05] ∧
    serialize pal (.commonRun 0x20 3) = .ok [0xF2, 0x32] ∧
    serialize pal (.pattern [0xAB, 0xCD] 10) = .ok [0xE0, 0x2A, 0xAB, 0xCD] ∧
    serialize pal (.delta 0x20 3 49) = .error .fieldTruncated ∧
    serialize pal (.commonRun 0x64 3) = .error .fieldTruncated

/-- R133, R150: the encoder step. The selected token always packs; if its bytes fit `OUT_CAP` they are appended and
the cursor moves by the coverage, else AllocationFailure. -/
def Obligations.EncStepPacksSelectedToken : Prop :=
  ∀ (s : State) (r : List Byte), EncoderReady s r →
    ∃ bytes, serialize s.par.palette (selectAt s.par.palette r) = .ok bytes ∧
      (s.olen + bytes.length ≤ s.par.outCap →
        ∃ t, step s = .next t ∧ Appended s (cov (selectAt s.par.palette r)) bytes t) ∧
      (s.par.outCap < s.olen + bytes.length → ∃ t, step s = .next t ∧ FailedWith s .allocationFailure t)

/-! ## Errors an operation can end with -/

/-- R138, R195: a running COMPRESS ends in no error but AllocationFailure. R196: a running DECOMPRESS never ends in
FieldTruncated. -/
def Obligations.ErrorsOfEachOperation : Prop :=
  (∀ (s t : State) (r : List Byte), EncoderReady s r → step s = .next t → t.status = .failed →
    t.err = some .allocationFailure) ∧
  (∀ (s t : State) (r : List Byte), DecoderReady s r → step s = .next t → t.status = .failed →
    t.err = some .truncated ∨ t.err = some .invalidPaletteIndex ∨ t.err = some .unknownEscape ∨
    t.err = some .allocationFailure)

/-! ## The two operations as functions -/

/-- R138, R137: encoding never fails, and the stream is at most twice as long as the input. -/
def Obligations.CompressIsTotalAndBounded : Prop :=
  ∀ (pal : Vector Byte 8) (x : List Byte), ∃ y, compress pal x = .ok y ∧ y.length ≤ 2 * x.length

/-- R151: the round trip, for every byte sequence and every palette. -/
def Obligations.DecompressInvertsCompress : Prop :=
  ∀ (pal : Vector Byte 8) (x : List Byte), ∃ y, compress pal x = .ok y ∧ decompress pal y = .ok x

/-- R136, R167: the empty input gives the empty output, in both directions. -/
def Obligations.EmptyInputGivesEmptyOutput : Prop :=
  ∀ pal : Vector Byte 8, compress pal [] = .ok [] ∧ decompress pal [] = .ok []

/-- R103: a run of zeros past the cap of 255 is continued by the ordinary selection at the new cursor. -/
def Obligations.LongZeroRunsAreChunked : Prop :=
  ∀ (pal : Vector Byte 8) (m : Nat), 3 ≤ m → m ≤ 255 →
    compress pal (List.replicate (255 + m) 0) = .ok [0xF0, 0xFF, 0xF0, BitVec.ofNat 8 m]

/-- R184: an expansion bound, `len(decode(e)) <= 127.5 * len(e)`. -/
def Obligations.DecompressedLengthIsBounded : Prop :=
  ∀ (pal : Vector Byte 8) (e o : List Byte), decompress pal e = .ok o → 2 * o.length ≤ 255 * e.length

/-- R183: three different streams decode to the same bytes. -/
def Obligations.DecompressIsNotInjective : Prop :=
  ∀ pal : Vector Byte 8,
    decompress pal [0x83, 0x64] = .ok [0x64, 0x64, 0x64] ∧
    decompress pal [0x01, 0x64, 0x01, 0x64, 0x01, 0x64] = .ok [0x64, 0x64, 0x64] ∧
    decompress pal [0xE0, 0x13, 0x64] = .ok [0x64, 0x64, 0x64]

/-! ## The state machine computes the functions -/

/-- R195, R131, R192, R193: a COMPRESS started on `x` ends within `IN_LEN + 1` engine transitions, in DONE with the
encoded stream of `x` as its result, of length at most `2 * IN_LEN`, if it fits `OUT_CAP`, else in FAILED with
AllocationFailure and no byte shown; it does not change `IN`. -/
def Obligations.CompressOperationComputesCompress : Prop :=
  ∀ (s : State) (x : List Byte), Started .compress x s →
    ∃ (y : List Byte) (k : Nat) (t : State),
      compress s.par.palette x = .ok y ∧ y.length ≤ 2 * x.length ∧
      k ≤ x.length + 1 ∧ Host.Core.run Sys2Proof.core k s = .next t ∧
      (y.length ≤ s.par.outCap → EndsDone t y) ∧
      (s.par.outCap < y.length → EndsFailed t .allocationFailure) ∧
      ∀ a, t.inMem.read a = s.inMem.read a

/-- R196, R161, R192, R193: a DECOMPRESS started on `x` ends within `IN_LEN + 1` engine transitions: in DONE with
`decompress` of `x` if that is defined and fits `OUT_CAP`; in FAILED with AllocationFailure if it does not fit; in
FAILED with the error of `decompress` if that is undefined and `OUT_CAP` is large enough (R249). That error is
Truncated, InvalidPaletteIndex or UnknownEscape. It does not change `IN`. -/
def Obligations.DecompressOperationComputesDecompress : Prop :=
  ∀ (s : State) (x : List Byte), Started .decompress x s →
    ∃ (k : Nat) (t : State), k ≤ x.length + 1 ∧ Host.Core.run Sys2Proof.core k s = .next t ∧
      (∀ y, decompress s.par.palette x = .ok y →
        (y.length ≤ s.par.outCap → EndsDone t y) ∧
        (s.par.outCap < y.length → EndsFailed t .allocationFailure)) ∧
      (∀ e, decompress s.par.palette x = .error e →
        (e = .truncated ∨ e = .invalidPaletteIndex ∨ e = .unknownEscape) ∧
        (EndsFailed t e ∨ EndsFailed t .allocationFailure) ∧
        (128 * x.length ≤ s.par.outCap → EndsFailed t e)) ∧
      ∀ a, t.inMem.read a = s.inMem.read a

/-- R197: what a COMPRESS of `x` leaves as its result, a DECOMPRESS on any instance with the same palette and room
for `x` turns back into `x`. -/
def Obligations.CompressThenDecompressRestoresInput : Prop :=
  ∀ (s s' : State) (x y : List Byte),
    Started .compress x s →
    (∃ (k : Nat) (t : State), Host.Core.run Sys2Proof.core k s = .next t ∧ EndsDone t y) →
    Started .decompress y s' → s'.par.palette = s.par.palette → x.length ≤ s'.par.outCap →
    ∃ (k : Nat) (t : State), Host.Core.run Sys2Proof.core k s' = .next t ∧ EndsDone t x

/-! ## Parameters -/

/-- R7: LEN_W is the smallest width whose range passes both capacities. -/
def Obligations.LengthWidthIsLeast : Prop :=
  ∀ p : Params, (max p.inCap p.outCap < 2 ^ lenW p) ∧ ∀ w, max p.inCap p.outCap < 2 ^ w → lenW p ≤ w
end

