-- ==== Sys2Proof/Laws/Decode.lean ====
section
/-! SUPPORT. Laws of the bit fields and of the decoder. -/

namespace Sys2Proof

@[simp] theorem modeField_controlByte (m : BitVec 2) (n : BitVec 6) : modeField (controlByte m n) = m := by
  revert m n; decide +kernel

@[simp] theorem lengthField_controlByte (m : BitVec 2) (n : BitVec 6) : lengthField (controlByte m n) = n := by
  revert m n; decide +kernel

@[simp] theorem controlByte_fields (c : Byte) : controlByte (modeField c) (lengthField c) = c := by
  revert c; decide +kernel

@[simp] theorem hiNibble_joinNibbles (h l : BitVec 4) : hiNibble (joinNibbles h l) = h := by
  revert h l; decide +kernel

@[simp] theorem loNibble_joinNibbles (h l : BitVec 4) : loNibble (joinNibbles h l) = l := by
  revert h l; decide +kernel

@[simp] theorem joinNibbles_fields (b : Byte) : joinNibbles (hiNibble b) (loNibble b) = b := by
  revert b; decide +kernel

/-- The availability test: exactly the first `k` bytes are taken, or none. -/
theorem takeBytes_eq_ok {k : Nat} {bytes a r : List Byte} :
    takeBytes k bytes = .ok (a, r) ↔ a.length = k ∧ bytes = a ++ r := by
  unfold takeBytes
  split
  · rename_i h
    constructor
    · intro h'; cases h'
    · rintro ⟨rfl, rfl⟩; simp at h
  · rename_i h
    constructor
    · intro h'
      cases h'
      exact ⟨by simp; omega, (List.take_append_drop k bytes).symm⟩
    · rintro ⟨rfl, rfl⟩; simp

theorem takeBytes_append (a r : List Byte) : takeBytes a.length (a ++ r) = .ok (a, r) :=
  takeBytes_eq_ok.2 ⟨rfl, rfl⟩

theorem takeBytes_truncated {k : Nat} {bytes : List Byte} (h : bytes.length < k) :
    takeBytes k bytes = .error .truncated := by
  simp [takeBytes, h]

/-- The length of an encoded instruction: the sizes of R76. -/
def Instr.size : Instr → Nat
  | .pattern _ unit => 2 + unit.length
  | .zeroRun _ => 2
  | .reservedF1 => 1
  | .commonRun _ _ => 2
  | .literal bytes => 1 + bytes.length
  | .nibble _ packed => 1 + packed.length
  | .run _ _ => 2
  | .delta _ _ _ => 3

theorem encode_length (i : Instr) : (encode i).length = i.size := by
  cases i <;> simp [encode, Instr.size] <;> omega

theorem Instr.size_pos (i : Instr) : 0 < i.size := by
  cases i <;> simp [Instr.size]

/-- Each row's control bytes, as `rowOf` finds them: a sentinel, or a mode outside the sentinels. -/
theorem rowOf_controlByte {m : BitVec 2} {n : BitVec 6} (h : m = 3 → shadowedLength n.toNat = false) :
    rowOf (controlByte m n) =
      if m = 0 then .literal else if m = 1 then .nibble else if m = 2 then .run else .delta := by
  revert h; revert m n; decide +kernel

theorem rowOf_sentinels : rowOf 0xE0 = .pattern ∧ rowOf 0xF0 = .zeroRun ∧ rowOf 0xF1 = .reservedF1 ∧
    rowOf 0xF2 = .commonRun := by decide

/-- What a control byte is, from its row. -/
theorem control_of_row (c : Byte) :
    (rowOf c = .pattern → c = 0xE0) ∧ (rowOf c = .zeroRun → c = 0xF0) ∧ (rowOf c = .reservedF1 → c = 0xF1) ∧
    (rowOf c = .commonRun → c = 0xF2) ∧ (rowOf c = .literal → c = controlByte 0 (lengthField c)) ∧
    (rowOf c = .nibble → c = controlByte 1 (lengthField c)) ∧ (rowOf c = .run → c = controlByte 2 (lengthField c)) ∧
    (rowOf c = .delta → c = controlByte 3 (lengthField c) ∧ shadowedLength (lengthField c).toNat = false) := by
  revert c; decide +kernel

end Sys2Proof
end

