-- ==== Sys2Proof/Laws/Codec.lean ====
section
/-! SUPPORT. Expansions and the loops of the two operations. -/

namespace Sys2Proof.Machine

/-- The size `Expand` gives is the length of the encoding (R76). -/
theorem expand_size {pal} {i : Instr} {size : Nat} {exp : List Byte} (hw : i.wellFormed = true)
    (h : expand pal i = .ok (size, exp)) : size = (encode i).length := by
  cases i with
  | commonRun n k =>
    simp only [expand, expandCommonRun] at h
    split at h
    · rename_i e he; split at he <;> cases he; cases h; rfl
    · cases h
  | reservedF1 => cases h
  | nibble n packed =>
    cases h
    have hl : packed.length = (n.toNat + 1) / 2 := by simpa [Instr.wellFormed] using hw
    simp [encode, hl]; omega
  | literal b => cases h; simp [encode]; omega
  | pattern c b => cases h; simp [encode]; omega
  | _ => cases h; rfl

/-- Every token has at least its control byte (R164). -/
theorem encode_length_pos (i : Instr) : 0 < (encode i).length := by rw [encode_length]; exact i.size_pos

/-- With a control byte present, decoding can only be Truncated (R165). -/
theorem decodeToken_cons_error {c : Byte} {t : List Byte} {e}
    (h : decodeToken (c :: t) = .error e) : e = .truncated := by
  simp only [decodeToken] at h
  have tb : ∀ k l e, takeBytes k l = .error e → e = .truncated := by
    intro k l e h; unfold takeBytes at h; split at h <;> cases h; rfl
  split at h
  · cases t with
    | nil => cases h; rfl
    | cons i t =>
      simp only [decodePattern] at h
      split at h
      · rename_i h'; cases h; exact tb _ _ _ h'
      · cases h
  · cases t <;> cases h; rfl
  · cases h
  · cases t <;> cases h; rfl
  · simp only [decodeLiteral] at h
    split at h
    · rename_i h'; cases h; exact tb _ _ _ h'
    · cases h
  · simp only [decodeNibble] at h
    split at h
    · rename_i h'; cases h; exact tb _ _ _ h'
    · cases h
  · cases t <;> cases h; rfl
  · match t with
    | [] => cases h; rfl
    | [_] => cases h; rfl
    | _ :: _ :: _ => cases h

/-- What follows a token is shorter than the stream (R164). -/
theorem decodeToken_length {bytes rest : List Byte} {i : Instr} (h : decodeToken bytes = .ok (i, rest)) :
    rest.length < bytes.length := by
  have drop_length : ∀ {k : Nat} {t a r : List Byte}, takeBytes k t = .ok (a, r) → r.length ≤ t.length := by
    intro k t a r h
    have := congrArg List.length (takeBytes_eq_ok.1 h).2
    simp at this; omega
  cases bytes with
  | nil => cases h
  | cons c t =>
    simp only [decodeToken] at h
    split at h
    · cases t with
      | nil => cases h
      | cons info t =>
        simp only [decodePattern] at h
        split at h
        · cases h
        · rename_i h'; cases h; have := drop_length h'; simp; omega
    · cases t <;> cases h; simp
    · cases h; simp
    · cases t <;> cases h; simp
    · simp only [decodeLiteral] at h
      split at h
      · cases h
      · rename_i h'; cases h; have := drop_length h'; simp; omega
    · simp only [decodeNibble] at h
      split at h
      · cases h
      · rename_i h'; cases h; have := drop_length h'; simp; omega
    · cases t <;> cases h; simp
    · match t with
      | [] => cases h
      | [_] => cases h
      | _ :: _ :: _ => cases h; simp; omega

/-- One turn of the loop of R131. -/
theorem compressFrom_step (pal) {f : Nat} {r : List Byte} (hr : r ≠ []) {b}
    (h : serialize pal (selectAt pal r) = .ok b) :
   compressFrom pal (f+1) r =
      match compressFrom pal f (r.drop (cov (selectAt pal r))) with
      | .error e => .error e | .ok o => .ok (b ++ o) := by
  cases r with
  | nil => exact absurd rfl hr
  | cons c t => simp only [compressFrom, h] <;> rfl

/-- One turn of the loop of R161. -/
theorem decompressFrom_step (pal) {f : Nat} {r rest : List Byte} {i size exp}
    (hd : decodeToken r = .ok (i, rest)) (he : expand pal i = .ok (size, exp)) :
   decompressFrom pal (f+1) r =
      match decompressFrom pal f rest with
      | .error e => .error e | .ok o => .ok (exp ++ o) := by
  cases r with
  | nil => cases hd
  | cons c t => simp only [decompressFrom, hd, he] <;> rfl

/-- The bound on the number of tokens does not matter once it reaches the length (R164). -/
theorem decompressFrom_fuel (pal) : ∀ f g (r : List Byte), r.length ≤ f → r.length ≤ g
    → decompressFrom pal f r = decompressFrom pal g r := by
  intro f
  induction f with
  | zero =>
    intro g r h _
    have : r = [] := List.length_eq_zero_iff.1 (by omega)
    subst this
    cases g <;> rfl
  | succ f ih =>
    intro g r h hg
    cases r with
    | nil => cases g <;> rfl
    | cons c t =>
      cases g with
      | zero => simp at hg
      | succ g =>
        simp only [decompressFrom]
        cases hd : decodeToken (c :: t) with
        | error e => rfl
        | ok v =>
          obtain ⟨i, rest⟩ := v
          have hl := decodeToken_length hd
          simp at hl h hg
          simp only
          rw [ih g rest (by omega) (by omega)]

end Sys2Proof.Machine
end

