-- ==== Sys2Proof/Laws/Memory.lean ====
section
/-! SUPPORT. Laws of the buffers: read after write, ranges, and the canonical form, which every memory operation
keeps. -/

namespace Sys2Proof.Machine

@[simp] theorem Memory.read_nil (a : Nat) : Memory.read [] a = none := rfl

theorem Memory.read_write (m : Memory) (a c : Nat) (v : Byte) :
    (m.write a v).read c = if c = a then some v else m.read c := by
  induction m with
  | nil => rfl
  | cons cell m ih =>
    obtain ⟨i, b⟩ := cell
    simp only [Memory.write]
    split
    · rfl
    · split
      · subst i
        simp only [Memory.read]
        split <;> rfl
      · simp only [Memory.read, ih]
        split
        · rw [if_neg (by omega)]
        · rfl

@[simp] theorem Memory.read_write_self (m : Memory) (a : Nat) (v : Byte) : (m.write a v).read a = some v := by
  simp [Memory.read_write]

theorem Memory.read_write_other (m : Memory) {a c : Nat} (v : Byte) (h : c ≠ a) :
    (m.write a v).read c = m.read c := by
  simp [Memory.read_write, h]

theorem Memory.read_writeBytes_outside (bytes : List Byte) :
    ∀ (m : Memory) (a c : Nat), c < a ∨ a + bytes.length ≤ c → (m.writeBytes a bytes).read c = m.read c := by
  induction bytes with
  | nil => intros; rfl
  | cons b t ih =>
    intro m a c h
    simp only [List.length_cons] at h
    rw [Memory.writeBytes, ih _ _ _ (by omega), Memory.read_write_other _ _ (by omega)]

theorem Memory.read_writeBytes_inside (bytes : List Byte) :
    ∀ (m : Memory) (a k : Nat) (b : Byte), bytes[k]? = some b → (m.writeBytes a bytes).read (a + k) = some b := by
  induction bytes with
  | nil => intro m a k b h; simp at h
  | cons v t ih =>
    intro m a k b h
    cases k with
    | zero =>
      obtain rfl : v = b := by simpa using h
      rw [Memory.writeBytes, Memory.read_writeBytes_outside _ _ _ _ (by omega)]
      simp
    | succ k =>
      have h' : t[k]? = some b := by simpa using h
      have := ih (m.write a v) (a + 1) k b h'
      rw [Memory.writeBytes, show a + (k + 1) = a + 1 + k by omega, this]

/-! ## The canonical form -/

/-- The bytes of a group read back the same whatever the buffer held before (R33). -/
theorem Memory.read_writeBytes_agree (m m' : Memory) {bytes : List Byte} {a c : Nat} (h1 : a ≤ c)
    (h2 : c < a + bytes.length) : (m.writeBytes a bytes).read c = (m'.writeBytes a bytes).read c := by
  obtain ⟨k, rfl⟩ := Nat.exists_eq_add_of_le h1
  have hk : bytes[k]? = some (bytes[k]'(by omega)) := by simp
  rw [Memory.read_writeBytes_inside bytes m a k _ hk, Memory.read_writeBytes_inside bytes m' a k _ hk]

theorem Memory.write_mem {m : Memory} {a : Nat} {v : Byte} {cell : Host.Cell} (h : cell ∈ m.write a v) :
    cell.1 = a ∨ cell ∈ m := by
  induction m with
  | nil => simp only [Memory.write, List.mem_singleton] at h; exact .inl (by rw [h])
  | cons c m ih =>
    obtain ⟨i, b⟩ := c
    simp only [Memory.write] at h
    split at h
    · rcases List.mem_cons.1 h with rfl | h
      · exact .inl rfl
      · exact .inr h
    · split at h
      · rcases List.mem_cons.1 h with rfl | h
        · exact .inl rfl
        · exact .inr (List.mem_cons_of_mem _ h)
      · rcases List.mem_cons.1 h with rfl | h
        · exact .inr List.mem_cons_self
        · exact (ih h).imp id (List.mem_cons_of_mem _)

theorem Memory.write_wf {m : Memory} (hm : m.wf) (a : Nat) (v : Byte) : (m.write a v).wf := by
  induction m with
  | nil => simp [Memory.wf, Memory.write]
  | cons c m ih =>
    obtain ⟨i, b⟩ := c
    obtain ⟨h1, h2⟩ := List.pairwise_cons.1 hm
    simp only [Memory.write]
    split
    · rename_i hlt
      refine List.pairwise_cons.2 ⟨fun cell hc => ?_, hm⟩
      rcases List.mem_cons.1 hc with rfl | hc
      · exact hlt
      · exact Nat.lt_trans hlt (h1 cell hc)
    · split
      · subst i
        exact List.pairwise_cons.2 ⟨h1, h2⟩
      · refine List.pairwise_cons.2 ⟨fun cell hc => ?_, ih h2⟩
        rcases Memory.write_mem hc with h | h
        · show i < cell.1
          omega
        · exact h1 cell h

theorem Memory.writeBytes_wf (bytes : List Byte) :
    ∀ {m : Memory}, m.wf → ∀ a, (m.writeBytes a bytes).wf := by
  induction bytes with
  | nil => intro m hm a; exact hm
  | cons b t ih => intro m hm a; exact ih (Memory.write_wf hm a b) (a + 1)

theorem Memory.writeBytes_mem (bytes : List Byte) :
    ∀ {m : Memory} {a : Nat} {cell : Host.Cell}, cell ∈ m.writeBytes a bytes →
      (a ≤ cell.1 ∧ cell.1 < a + bytes.length) ∨ cell ∈ m := by
  induction bytes with
  | nil => intro m a cell h; exact .inr h
  | cons b t ih =>
    intro m a cell h
    simp only [List.length_cons]
    rcases ih h with h | h
    · exact .inl (by omega)
    · rcases Memory.write_mem h with h | h
      · exact .inl (by omega)
      · exact .inr h

/-! ## Ranges -/

theorem Memory.readBytes_succ_eq_some {m : Memory} {a n : Nat} {x : List Byte} :
    m.readBytes a (n + 1) = some x ↔ ∃ b t, m.read a = some b ∧ m.readBytes (a + 1) n = some t ∧ x = b :: t := by
  simp only [Memory.readBytes]
  constructor
  · intro h
    split at h
    · rename_i b t hb ht
      cases h
      exact ⟨b, t, hb, ht, rfl⟩
    · cases h
  · rintro ⟨b, t, hb, ht, rfl⟩
    simp [hb, ht]

theorem Memory.readBytes_length {m : Memory} :
    ∀ {n a : Nat} {x : List Byte}, m.readBytes a n = some x → x.length = n := by
  intro n
  induction n with
  | zero => intro a x h; cases h; rfl
  | succ n ih =>
    intro a x h
    obtain ⟨b, t, -, ht, rfl⟩ := Memory.readBytes_succ_eq_some.1 h
    simp [ih ht]

/-- A range holds `x` exactly when it has the length of `x` and each byte of `x` at its place. -/
theorem Memory.readBytes_eq_some {m : Memory} :
    ∀ {n a : Nat} {x : List Byte},
      m.readBytes a n = some x ↔ x.length = n ∧ ∀ k b, x[k]? = some b → m.read (a + k) = some b := by
  intro n
  induction n with
  | zero =>
    intro a x
    constructor
    · intro h; cases h; simp
    · rintro ⟨h, -⟩
      rw [List.length_eq_zero_iff.1 h]; rfl
  | succ n ih =>
    intro a x
    rw [Memory.readBytes_succ_eq_some]
    constructor
    · rintro ⟨b, t, hb, ht, rfl⟩
      obtain ⟨h1, h2⟩ := ih.1 ht
      refine ⟨by simp [h1], fun k c hk => ?_⟩
      cases k with
      | zero => simpa [hb] using hk
      | succ k => rw [show a + (k + 1) = a + 1 + k by omega]; exact h2 k c (by simpa using hk)
    · rintro ⟨h1, h2⟩
      cases x with
      | nil => simp at h1
      | cons b t =>
        refine ⟨b, t, by simpa using h2 0 b rfl, ih.2 ⟨by simpa using h1, fun k c hk => ?_⟩, rfl⟩
        have := h2 (k + 1) c (by simpa using hk)
        rwa [show a + (k + 1) = a + 1 + k by omega] at this

theorem Memory.readBytes_drop {m : Memory} {a n k : Nat} {x : List Byte} (h : m.readBytes a n = some x) :
    m.readBytes (a + k) (n - k) = some (x.drop k) := by
  obtain ⟨h1, h2⟩ := Memory.readBytes_eq_some.1 h
  refine Memory.readBytes_eq_some.2 ⟨by simp [h1], fun j b hj => ?_⟩
  rw [List.getElem?_drop] at hj
  rw [show a + k + j = a + (k + j) by omega]
  exact h2 _ _ hj

theorem Memory.readBytes_congr {m m' : Memory} {a n : Nat} (h : ∀ c, a ≤ c → c < a + n → m.read c = m'.read c) :
    m.readBytes a n = m'.readBytes a n := by
  induction n generalizing a with
  | zero => rfl
  | succ n ih =>
    rw [Memory.readBytes, Memory.readBytes, h a (Nat.le_refl _) (by omega),
      ih fun c h1 h2 => h c (by omega) (by omega)]

/-- Appending `bytes` behind a range of length `n` that holds `x`. -/
theorem Memory.readBytes_writeBytes_append {m : Memory} {n : Nat} {x : List Byte} (bytes : List Byte)
    (h : m.readBytes 0 n = some x) : (m.writeBytes n bytes).readBytes 0 (n + bytes.length) = some (x ++ bytes) := by
  obtain ⟨h1, h2⟩ := Memory.readBytes_eq_some.1 h
  refine Memory.readBytes_eq_some.2 ⟨by simp [h1], fun k b hk => ?_⟩
  rw [Nat.zero_add]
  by_cases hlt : k < n
  · rw [Memory.read_writeBytes_outside _ _ _ _ (.inl hlt)]
    rw [List.getElem?_append_left (by omega)] at hk
    simpa using h2 k b hk
  · rw [List.getElem?_append_right (by omega)] at hk
    have := Memory.read_writeBytes_inside bytes m n (k - x.length) b hk
    rwa [h1, show n + (k - n) = k by omega] at this

/-- A byte below every listed index holds no value. -/
theorem Memory.read_below {m : Memory} {a : Nat} (h : ∀ cell ∈ m, a < cell.1) : m.read a = none := by
  induction m with
  | nil => rfl
  | cons c m ih =>
    obtain ⟨i, b⟩ := c
    have hi : a < i := h (i, b) (by simp)
    simp only [Memory.read, if_neg (show a ≠ i by omega)]
    exact ih fun cell hc => h cell (by simp [hc])

/-- The form is canonical: buffers that read the same at every index are the same list. -/
theorem Memory.ext_of_wf {m m' : Memory} (h : m.wf) (h' : m'.wf) (hr : ∀ a, m.read a = m'.read a) : m = m' := by
  induction m generalizing m' with
  | nil =>
    cases m' with
    | nil => rfl
    | cons c t => have := hr c.1; simp [Memory.read] at this
  | cons c t ih =>
    cases m' with
    | nil => have := hr c.1; simp [Memory.read] at this
    | cons c' t' =>
      obtain ⟨i, b⟩ := c
      obtain ⟨j, d⟩ := c'
      obtain ⟨hc, ht⟩ := List.pairwise_cons.1 h
      obtain ⟨hc', ht'⟩ := List.pairwise_cons.1 h'
      have low : ∀ {k e : Nat} {u : Memory}, (∀ cell ∈ u, k < cell.1) → e ≤ k → Memory.read u e = none :=
        fun hu he => Memory.read_below fun cell hcell => by have := hu cell hcell; omega
      have hij : i = j := by
        rcases Nat.lt_trichotomy i j with hlt | heq | hgt
        · have := hr i
          simp only [Memory.read, if_neg (show i ≠ j by omega), if_true, low hc' (show i ≤ j by omega)] at this
          cases this
        · exact heq
        · have := hr j
          simp only [Memory.read, if_neg (show j ≠ i by omega), if_true, low hc (show j ≤ i by omega)] at this
          cases this
      subst hij
      have hb : b = d := by have := hr i; simpa [Memory.read] using this
      subst hb
      have htail : ∀ a, Memory.read t a = Memory.read t' a := fun a => by
        by_cases ha : a = i
        · rw [ha, low hc (Nat.le_refl i), low hc' (Nat.le_refl i)]
        · have := hr a; simpa [Memory.read, ha] using this
      rw [ih ht ht' htail]

/-- Both buffers are in canonical form after reset: nothing is listed. -/
theorem State.resetOf_wf (p : Params) : (State.resetOf p).inMem.wf ∧ (State.resetOf p).outMem.wf :=
  ⟨.nil, .nil⟩

end Sys2Proof.Machine
end

