-- ==== Sys2Proof/Laws/State.lean ====
section
/-! SUPPORT. One lemma per field of State and named update, each true by rfl, so that no later proof unfolds a record
update. -/

namespace Sys2Proof.Machine

@[simp] theorem appendOut_par (bytes : List Byte) (s : State) : (appendOut bytes s).par = s.par := rfl
@[simp] theorem appendOut_op (bytes : List Byte) (s : State) : (appendOut bytes s).op = s.op := rfl
@[simp] theorem appendOut_inLen (bytes : List Byte) (s : State) : (appendOut bytes s).inLen = s.inLen := rfl
@[simp] theorem appendOut_status (bytes : List Byte) (s : State) : (appendOut bytes s).status = s.status := rfl
@[simp] theorem appendOut_err (bytes : List Byte) (s : State) : (appendOut bytes s).err = s.err := rfl
@[simp] theorem appendOut_outLen (bytes : List Byte) (s : State) : (appendOut bytes s).outLen = s.outLen := rfl
@[simp] theorem appendOut_pos (bytes : List Byte) (s : State) : (appendOut bytes s).pos = s.pos := rfl
@[simp] theorem appendOut_olen (bytes : List Byte) (s : State) : (appendOut bytes s).olen = s.olen + bytes.length := rfl
@[simp] theorem appendOut_inMem (bytes : List Byte) (s : State) : (appendOut bytes s).inMem = s.inMem := rfl
@[simp] theorem appendOut_outMem (bytes : List Byte) (s : State) : (appendOut bytes s).outMem = s.outMem.writeBytes s.olen bytes := rfl
@[simp] theorem appendOut_host (bytes : List Byte) (s : State) : (appendOut bytes s).host = s.host := rfl

@[simp] theorem advance_par (size : Nat) (s : State) : (advance size s).par = s.par := rfl
@[simp] theorem advance_op (size : Nat) (s : State) : (advance size s).op = s.op := rfl
@[simp] theorem advance_inLen (size : Nat) (s : State) : (advance size s).inLen = s.inLen := rfl
@[simp] theorem advance_status (size : Nat) (s : State) : (advance size s).status = s.status := rfl
@[simp] theorem advance_err (size : Nat) (s : State) : (advance size s).err = s.err := rfl
@[simp] theorem advance_outLen (size : Nat) (s : State) : (advance size s).outLen = s.outLen := rfl
@[simp] theorem advance_pos (size : Nat) (s : State) : (advance size s).pos = s.pos + size := rfl
@[simp] theorem advance_olen (size : Nat) (s : State) : (advance size s).olen = s.olen := rfl
@[simp] theorem advance_inMem (size : Nat) (s : State) : (advance size s).inMem = s.inMem := rfl
@[simp] theorem advance_outMem (size : Nat) (s : State) : (advance size s).outMem = s.outMem := rfl
@[simp] theorem advance_host (size : Nat) (s : State) : (advance size s).host = s.host := rfl

@[simp] theorem raise_par (e : CodecError) (s : State) : (raise e s).par = s.par := rfl
@[simp] theorem raise_op (e : CodecError) (s : State) : (raise e s).op = s.op := rfl
@[simp] theorem raise_inLen (e : CodecError) (s : State) : (raise e s).inLen = s.inLen := rfl
@[simp] theorem raise_status (e : CodecError) (s : State) : (raise e s).status = .failed := rfl
@[simp] theorem raise_err (e : CodecError) (s : State) : (raise e s).err = some e := rfl
@[simp] theorem raise_outLen (e : CodecError) (s : State) : (raise e s).outLen = 0 := rfl
@[simp] theorem raise_pos (e : CodecError) (s : State) : (raise e s).pos = s.pos := rfl
@[simp] theorem raise_olen (e : CodecError) (s : State) : (raise e s).olen = s.olen := rfl
@[simp] theorem raise_inMem (e : CodecError) (s : State) : (raise e s).inMem = s.inMem := rfl
@[simp] theorem raise_outMem (e : CodecError) (s : State) : (raise e s).outMem = s.outMem := rfl
@[simp] theorem raise_host (e : CodecError) (s : State) : (raise e s).host = s.host := rfl

@[simp] theorem startOp_par (s : State) : (startOp s).par = s.par := rfl
@[simp] theorem startOp_op (s : State) : (startOp s).op = s.op := rfl
@[simp] theorem startOp_inLen (s : State) : (startOp s).inLen = s.inLen := rfl
@[simp] theorem startOp_status (s : State) : (startOp s).status = .busy := rfl
@[simp] theorem startOp_err (s : State) : (startOp s).err = none := rfl
@[simp] theorem startOp_outLen (s : State) : (startOp s).outLen = 0 := rfl
@[simp] theorem startOp_pos (s : State) : (startOp s).pos = 0 := rfl
@[simp] theorem startOp_olen (s : State) : (startOp s).olen = 0 := rfl
@[simp] theorem startOp_inMem (s : State) : (startOp s).inMem = s.inMem := rfl
@[simp] theorem startOp_outMem (s : State) : (startOp s).outMem = s.outMem := rfl
@[simp] theorem startOp_host (s : State) : (startOp s).host = s.host := rfl

@[simp] theorem finish_par (s : State) : (finish s).par = s.par := rfl
@[simp] theorem finish_op (s : State) : (finish s).op = s.op := rfl
@[simp] theorem finish_inLen (s : State) : (finish s).inLen = s.inLen := rfl
@[simp] theorem finish_status (s : State) : (finish s).status = .done := rfl
@[simp] theorem finish_err (s : State) : (finish s).err = s.err := rfl
@[simp] theorem finish_outLen (s : State) : (finish s).outLen = s.olen := rfl
@[simp] theorem finish_pos (s : State) : (finish s).pos = s.pos := rfl
@[simp] theorem finish_olen (s : State) : (finish s).olen = s.olen := rfl
@[simp] theorem finish_inMem (s : State) : (finish s).inMem = s.inMem := rfl
@[simp] theorem finish_outMem (s : State) : (finish s).outMem = s.outMem := rfl
@[simp] theorem finish_host (s : State) : (finish s).host = s.host := rfl

@[simp] theorem hostReset_par (s : State) : (hostReset s).par = s.par := rfl
@[simp] theorem hostReset_op (s : State) : (hostReset s).op = .compress := rfl
@[simp] theorem hostReset_inLen (s : State) : (hostReset s).inLen = 0 := rfl
@[simp] theorem hostReset_status (s : State) : (hostReset s).status = .idle := rfl
@[simp] theorem hostReset_err (s : State) : (hostReset s).err = none := rfl
@[simp] theorem hostReset_outLen (s : State) : (hostReset s).outLen = 0 := rfl
@[simp] theorem hostReset_pos (s : State) : (hostReset s).pos = 0 := rfl
@[simp] theorem hostReset_olen (s : State) : (hostReset s).olen = 0 := rfl
@[simp] theorem hostReset_inMem (s : State) : (hostReset s).inMem = [] := rfl
@[simp] theorem hostReset_outMem (s : State) : (hostReset s).outMem = [] := rfl
@[simp] theorem hostReset_host (s : State) : (hostReset s).host = s.host := rfl

@[simp] theorem resetOf_par (p : Params) : (State.resetOf p).par = p := rfl
@[simp] theorem resetOf_op (p : Params) : (State.resetOf p).op = .compress := rfl
@[simp] theorem resetOf_inLen (p : Params) : (State.resetOf p).inLen = 0 := rfl
@[simp] theorem resetOf_status (p : Params) : (State.resetOf p).status = .idle := rfl
@[simp] theorem resetOf_err (p : Params) : (State.resetOf p).err = none := rfl
@[simp] theorem resetOf_outLen (p : Params) : (State.resetOf p).outLen = 0 := rfl
@[simp] theorem resetOf_pos (p : Params) : (State.resetOf p).pos = 0 := rfl
@[simp] theorem resetOf_olen (p : Params) : (State.resetOf p).olen = 0 := rfl
@[simp] theorem resetOf_inMem (p : Params) : (State.resetOf p).inMem = [] := rfl
@[simp] theorem resetOf_outMem (p : Params) : (State.resetOf p).outMem = [] := rfl
@[simp] theorem resetOf_host (p : Params) : (State.resetOf p).host = [] := rfl

@[simp] theorem placeWord_par (nbits w : Nat) (s : State) : (placeWord s nbits w).par = s.par := rfl
@[simp] theorem placeWord_op (nbits w : Nat) (s : State) : (placeWord s nbits w).op = .decompress := rfl
@[simp] theorem placeWord_inLen (nbits w : Nat) (s : State) : (placeWord s nbits w).inLen = s.pos + longestToken := rfl
@[simp] theorem placeWord_status (nbits w : Nat) (s : State) : (placeWord s nbits w).status = .busy := rfl
@[simp] theorem placeWord_err (nbits w : Nat) (s : State) : (placeWord s nbits w).err = s.err := rfl
@[simp] theorem placeWord_outLen (nbits w : Nat) (s : State) : (placeWord s nbits w).outLen = s.outLen := rfl
@[simp] theorem placeWord_pos (nbits w : Nat) (s : State) : (placeWord s nbits w).pos = s.pos := rfl
@[simp] theorem placeWord_olen (nbits w : Nat) (s : State) : (placeWord s nbits w).olen = s.olen := rfl
@[simp] theorem placeWord_inMem (nbits w : Nat) (s : State) : (placeWord s nbits w).inMem = s.inMem.writeBytes s.pos (wordBytes nbits w) := by
  simp only [placeWord]
@[simp] theorem placeWord_outMem (nbits w : Nat) (s : State) : (placeWord s nbits w).outMem = s.outMem := rfl
@[simp] theorem placeWord_host (nbits w : Nat) (s : State) : (placeWord s nbits w).host = [] := rfl

end Sys2Proof.Machine
end

