-- ==== Sys2Proof/Laws/Ops.lean ====
section
/-! SUPPORT. One lemma for each shared operation, saying everything it can do. -/

namespace Sys2Proof.Machine

/-! ## emit, appendAndAdvance, raise -/

/-- A group that fits is appended whole and the cursor moves past the token. -/
theorem appendAndAdvance_fits {bytes : List Byte} {size : Nat} {s : State}
    (h : s.olen + bytes.length ≤ s.par.outCap) :
    appendAndAdvance bytes size s = .next (advance size (appendOut bytes s)) := by
  simp [appendAndAdvance, emit, Nat.not_lt.2 h]

/-- A group that does not fit is not appended at all. -/
theorem appendAndAdvance_full {bytes : List Byte} {size : Nat} {s : State}
    (h : s.par.outCap < s.olen + bytes.length) :
    appendAndAdvance bytes size s = .next (raise .allocationFailure s) := by
  simp [appendAndAdvance, emit, h]

/-- Everything `appendAndAdvance` can do. -/
theorem appendAndAdvance_cases (bytes : List Byte) (size : Nat) (s : State) :
    (s.olen + bytes.length ≤ s.par.outCap ∧
      appendAndAdvance bytes size s = .next (advance size (appendOut bytes s))) ∨
    (s.par.outCap < s.olen + bytes.length ∧
      appendAndAdvance bytes size s = .next (raise .allocationFailure s)) := by
  rcases Nat.lt_or_ge s.par.outCap (s.olen + bytes.length) with h | h
  · exact .inr ⟨h, appendAndAdvance_full h⟩
  · exact .inl ⟨h, appendAndAdvance_fits h⟩

theorem appended_advance_appendOut (bytes : List Byte) (size : Nat) (s : State) :
    Appended s size bytes (advance size (appendOut bytes s)) where
  pos := rfl
  olen := rfl
  stored k b h := Memory.read_writeBytes_inside bytes s.outMem s.olen k b h
  outside a h := Memory.read_writeBytes_outside bytes s.outMem s.olen a h
  inMem _ := rfl
  par := rfl
  op := rfl
  inLen := rfl
  status := rfl
  err := rfl
  outLen := rfl
  host := rfl

theorem failedWith_raise (e : CodecError) (s : State) : FailedWith s e (raise e s) where
  status := rfl
  err := rfl
  outLen := rfl
  pos := rfl
  olen := rfl
  inMem _ := rfl
  outMem _ := rfl
  par := rfl
  op := rfl
  inLen := rfl
  host := rfl

/-- A token step that fits ends in a state that `Appended` describes. -/
theorem appendAndAdvance_appended {bytes : List Byte} {size : Nat} {s : State}
    (h : s.olen + bytes.length ≤ s.par.outCap) :
    ∃ t, appendAndAdvance bytes size s = .next t ∧ Appended s size bytes t :=
  ⟨_, appendAndAdvance_fits h, appended_advance_appendOut bytes size s⟩

/-! ## remaining and input -/

/-- `IN[POS .. IN_LEN-1]` is the tail of the whole input. -/
theorem remaining_of_input {s : State} {x : List Byte} (h : s.input = some x) :
    s.remaining = some (x.drop s.pos) := by
  unfold State.input at h
  unfold State.remaining
  split at h
  · rename_i hcap
    rw [if_pos hcap]
    simpa using Memory.readBytes_drop (k := s.pos) h
  · cases h

theorem input_length {s : State} {x : List Byte} (h : s.input = some x) : x.length = s.inLen := by
  unfold State.input at h
  split at h
  · exact Memory.readBytes_length h
  · cases h

theorem input_inCap {s : State} {x : List Byte} (h : s.input = some x) : s.inLen ≤ s.par.inCap := by
  unfold State.input at h
  split at h
  · assumption
  · cases h

theorem remaining_length {s : State} {r : List Byte} (h : s.remaining = some r) : r.length = s.inLen - s.pos := by
  unfold State.remaining at h
  split at h
  · exact Memory.readBytes_length h
  · cases h

/-- The input depends on `IN`, `IN_LEN` and `IN_CAP` only. -/
theorem input_congr {s t : State} (h1 : t.inMem = s.inMem) (h2 : t.inLen = s.inLen) (h3 : t.par = s.par) :
    t.input = s.input := by
  simp [State.input, h1, h2, h3]

theorem remaining_congr {s t : State} (h1 : t.inMem = s.inMem) (h2 : t.inLen = s.inLen) (h3 : t.par = s.par)
    (h4 : t.pos = s.pos) : t.remaining = s.remaining := by
  simp [State.remaining, h1, h2, h3, h4]

end Sys2Proof.Machine
end

