-- ==== Sys2Proof/Laws/Engine.lean ====
section
/-! SUPPORT. What a step can do: the engine's turn and every next state of a step, said once. -/

namespace Sys2Proof.Machine

/-- `exec` of a token that has an expansion (R163). -/
theorem exec_of_expand_ok {i : Instr} {s : State} {size : Nat} {exp : List Byte}
    (h : expand s.par.palette i = .ok (size, exp)) : exec i s = appendAndAdvance exp size s := by
  cases i with
  | commonRun n k =>
    simp only [expand] at h
    simp only [exec, execCommonRun]
    split at h
    · rename_i e he; cases h; rw [he]
    · cases h
  | reservedF1 => cases h
  | _ => cases h; rfl

/-- `exec` of a token that raises an error of its own rule (R177, R178). -/
theorem exec_of_expand_error {i : Instr} {s : State} {e}
    (h : expand s.par.palette i = .error e) : exec i s = .next (raise e s) := by
  cases i with
  | commonRun n k =>
    simp only [expand] at h
    simp only [exec, execCommonRun]
    split at h
    · cases h
    · rename_i he; cases h; rw [he]
  | reservedF1 => cases h; rfl
  | _ => cases h

/-- Every meaning ends in one of two shared operations. -/
theorem exec_cases (i : Instr) (s : State) : (∃ e, exec i s = .next (raise e s))
    ∨ ∃ b n, exec i s = appendAndAdvance b n s := by
  cases i
  case commonRun n k =>
    simp only [exec, execCommonRun]
    split
    · exact .inr ⟨_, _, rfl⟩
    · exact .inl ⟨_, rfl⟩
  case reservedF1 => exact .inl ⟨_, rfl⟩
  all_goals exact .inr ⟨_, _, rfl⟩

/-- The engine has no step unless BUSY (R37). -/
theorem engineTurn_quiescent {s : State} (h : s.status ≠ .busy) : engineTurn s = .fault .engineQuiescent := by
  unfold engineTurn
  cases hs : s.status <;> first | rfl | exact absurd hs h

/-- Without a host move a step is the engine's turn. -/
theorem step_of_host_nil {s : State} (h : s.host = []) : step s = engineTurn s := by simp [step, h]

/-- A step of a running DECOMPRESS is the decoder step (R163). -/
theorem step_of_decoderReady {s : State} {r : List Byte} (h : DecoderReady s r) : step s = decStep r s := by
  simp [step, h.host, engineTurn, h.status, h.cursor, tokenStep, h.rest, h.op]

/-- Everything the engine's turn can do (R192). -/
theorem engineTurn_cases (s : State) :
   (s.status ≠ .busy ∧ engineTurn s = .fault .engineQuiescent) ∨
   (s.status = .busy ∧ s.inLen < s.pos ∧ engineTurn s = .fault .cursorPastInput) ∨
   (s.status = .busy ∧ s.pos = s.inLen ∧ engineTurn s = .next (finish s)) ∨
   (s.status = .busy ∧ s.pos < s.inLen ∧ s.remaining = none ∧ engineTurn s = .fault .inputByteMissing) ∨
   (s.status = .busy ∧ s.pos < s.inLen ∧ ∃ r, s.remaining = some r ∧ r ≠ [] ∧
     ((s.op = .compress ∧
        ((∃ e, serialize s.par.palette (selectAt s.par.palette r) = .error e ∧ engineTurn s = .next (raise e s)) ∨
         ∃ b, serialize s.par.palette (selectAt s.par.palette r) = .ok b ∧
           engineTurn s = appendAndAdvance b (cov (selectAt s.par.palette r)) s)) ∨
      (s.op = .decompress ∧ ((decodeToken r = .error .truncated ∧ engineTurn s = .next (raise .truncated s)) ∨
         ∃ i rest, decodeToken r = .ok (i, rest) ∧
           ((∃ e, expand s.par.palette i = .error e ∧ engineTurn s = .next (raise e s)) ∨
            ∃ size exp, expand s.par.palette i = .ok (size, exp)
                ∧ engineTurn s = appendAndAdvance exp size s))))) := by
  by_cases hs : s.status = .busy
  · rcases Nat.lt_trichotomy s.pos s.inLen with h | h | h
    · right; right; right
      have e : engineTurn s = tokenStep s := by simp [engineTurn, hs, h]
      rw [e]
      unfold tokenStep
      cases hr : s.remaining with
      | none => left; exact ⟨hs, h, rfl, rfl⟩
      | some r =>
        right
        have hrn : r ≠ [] := by
          rintro rfl
          have := remaining_length hr
          simp at this; omega
        refine ⟨hs, h, r, rfl, hrn, ?_⟩
        cases ho : s.op with
        | compress =>
          left
          refine ⟨rfl, ?_⟩
          cases hb : serialize s.par.palette (selectAt s.par.palette r) with
          | error e => exact .inl ⟨e, rfl, by simp only [encStep, hb]⟩
          | ok b => exact .inr ⟨b, rfl, by simp only [encStep, hb]⟩
        | decompress =>
          right
          refine ⟨rfl, ?_⟩
          cases hd : decodeToken r with
          | error e =>
            left
            cases r with
            | nil => exact absurd rfl hrn
            | cons c t =>
              have := decodeToken_cons_error hd
              subst this
              exact ⟨rfl, by simp only [decStep, hd]⟩
          | ok v =>
            obtain ⟨i, rest⟩ := v
            right
            refine ⟨i, rest, rfl, ?_⟩
            have e2 : decStep r s = exec i s := by simp only [decStep, hd]
            simp only [e2]
            cases he : expand s.par.palette i with
            | error e => left; exact ⟨e, rfl, exec_of_expand_error he⟩
            | ok v => obtain ⟨a, b⟩ := v; right; exact ⟨a, b, rfl, exec_of_expand_ok he⟩
    · right; right; left; exact ⟨hs, h, by simp [engineTurn, hs, h]⟩
    · right; left
      exact ⟨hs, h, by simp only [engineTurn, hs]; rw [if_neg (by omega), if_neg (by omega)]⟩
  · left
    refine ⟨hs, ?_⟩
    unfold engineTurn
    cases h : s.status <;> simp_all

/-- Everything a step that answers a next state has done (R190 to R193, R240). -/
theorem step_cases {s t : State} (h : step s = .next t) :
   (s.host = [] ∧ engineTurn s = .next t) ∨
   (∃ later, s.host = .yield :: later ∧ engineTurn {s with host := later} = .next t) ∨
   (∃ later, s.host = .wait :: later ∧ s.status = .busy ∧ engineTurn s = .next t) ∨
   (∃ later, s.host = .wait :: later ∧ s.status ≠ .busy ∧ t = {s with host := later}) ∨
   (∃ later i b, s.host = .writeIn i b :: later ∧ i < s.par.inCap ∧ s.status ≠ .busy ∧ t =
       {s with host := later, inMem := s.inMem.write i b}) ∨
   (∃ later n, s.host = .writeInLen n :: later ∧ n < 2^lenW s.par ∧ s.status ≠ .busy ∧ t =
       {s with host := later, inLen := n}) ∨
   (∃ later o, s.host = .writeOp o :: later ∧ s.status ≠ .busy ∧ t = {s with host := later, op := o}) ∨
   (∃ later, s.host = .start :: later ∧ s.status = .busy ∧ t = {s with host := later}) ∨
   (∃ later, s.host = .start :: later ∧ s.status ≠ .busy ∧ s.inLen ≤ s.par.inCap ∧ (∃ x, s.input = some x)
       ∧ t = startOp {s with host := later}) ∨
   (∃ later, s.host = .reset :: later ∧ t = hostReset {s with host := later}) := by
  have wnb : ∀ (u v : State), whenNotBusy u v = .next t → u.status ≠ .busy ∧ t = v := by
    intro u v h
    unfold whenNotBusy at h
    split at h
    · cases h
    · rename_i hb; cases h; exact ⟨fun hs => hb (by simp [State.isBusy, hs]), rfl⟩
  cases hh : s.host with
  | nil => left; exact ⟨rfl, by rwa [step_of_host_nil hh] at h⟩
  | cons m later =>
    right
    simp only [step, hh] at h
    cases m with
    | writeIn i b =>
      simp only [hostTurn, hostWriteIn] at h
      split at h
      · rename_i hi
        obtain ⟨h1, h2⟩ := wnb _ _ h
        exact .inr (.inr (.inr (.inl ⟨later, i, b, rfl, hi, h1, h2⟩)))
      · cases h
    | writeInLen n =>
      simp only [hostTurn, hostWriteInLen] at h
      split at h
      · rename_i hi
        obtain ⟨h1, h2⟩ := wnb _ _ h
        exact .inr (.inr (.inr (.inr (.inl ⟨later, n, rfl, hi, h1, h2⟩))))
      · cases h
    | writeOp o =>
      obtain ⟨h1, h2⟩ := wnb _ _ h
      exact .inr (.inr (.inr (.inr (.inr (.inl ⟨later, o, rfl, h1, h2⟩)))))
    | start =>
      simp only [hostTurn, hostStart] at h
      split at h
      · rename_i hb
        cases h
        exact .inr (.inr (.inr (.inr (.inr (.inr (.inl ⟨later, rfl, by simpa [State.isBusy] using hb, rfl⟩))))))
      · rename_i hb
        split at h
        · cases h
        · rename_i hc
          split at h
          · cases h
          · rename_i hi
            cases h
            refine .inr (.inr (.inr (.inr (.inr (.inr (.inr (.inl ⟨later, rfl, by simpa
                [State.isBusy] using hb, by simpa using hc, ?_, rfl⟩)))))))
            cases hx : s.input with
            | some x => exact ⟨x, rfl⟩
            | none => exact absurd (by rw [← input_congr (s := s) (t := {s with host := later}) rfl rfl rfl] at hx; simp [hx]) hi
    | reset => cases h; exact .inr (.inr (.inr (.inr (.inr (.inr (.inr (.inr ⟨later, rfl, rfl⟩)))))))
    | yield => exact .inl ⟨later, rfl, h⟩
    | wait =>
      simp only [hostTurn] at h
      split at h
      · rename_i hb
        exact .inr (.inl ⟨later, rfl, by simpa [State.isBusy] using hb, h⟩)
      · rename_i hb
        cases h
        exact .inr (.inr (.inl ⟨later, rfl, by simpa [State.isBusy] using hb, rfl⟩))

/-- A run peels off its first step. -/
theorem run_succ_next {M : Host.Core} {s t : M.State} (k) (h : M.step s = .next t) : M.run (k+1) s = M.run k t := by
  rw [Host.Core.run, h]

/-- A run ends at a fault. -/
theorem run_succ_fault {M : Host.Core} {s : M.State} {f} (k) (h : M.step s = .fault f) : M.run (k+1) s = .fault f
    := by
  rw [Host.Core.run, h]

/-- A run ends at a refusal. -/
theorem run_succ_refused {M : Host.Core} {s : M.State} {f} (k)
    (h : M.step s = .refused f) : M.run (k+1) s = .refused f := by
  rw [Host.Core.run, h]

end Sys2Proof.Machine
end

