-- ==== Sys2Proof/Laws/Operands.lean ====
section
/-! SUPPORT. What the operand forms give: nibbles, progressions, repeated units, the palette. -/

namespace Sys2Proof.Machine

/-- Value `i` is the high nibble of packed byte `i div 2` for even `i`, its low nibble for odd `i` (R85). -/
theorem unpackNibbles_getElem? (packed : List Byte) : ∀ i, (unpackNibbles packed)[i]? = (packed[i/2]?).map
    fun b => if i % 2 = 0 then BitVec.ofNat 8 (b.toNat / 16) else BitVec.ofNat 8 (b.toNat % 16) := by
  induction packed with
  | nil => simp [unpackNibbles]
  | cons b t ih =>
    have hb : nibbleByte (hiNibble b) = BitVec.ofNat 8 (b.toNat/16)
        ∧ nibbleByte (loNibble b) = BitVec.ofNat 8 (b.toNat%16) := by
      revert b; decide +kernel
    intro i
    match i with
    | 0 => simp [unpackNibbles, hb.1]
    | 1 => simp [unpackNibbles, hb.2]
    | i+2 =>
      have := ih i
      rw [show (i+2)/2 = i/2+1 by omega, show (i+2)%2 = i%2 by omega]
      simpa [unpackNibbles] using this

/-- Two values per packed byte (R85). -/
theorem unpackNibbles_length (packed : List Byte) : (unpackNibbles packed).length = 2 * packed.length := by
  induction packed with
  | nil => rfl
  | cons b t ih => simp [unpackNibbles] at *; omega

/-- A progression of `n` values has `n` values (R173). -/
theorem progression_length (d : Int) : ∀ n s, (progression d n s).length = n := by
  intro n; induction n with
  | zero => intro s; rfl
  | succ n ih => intro s; simp [progression, ih]

/-- `deltaNext` is the Euclidean remainder of R10. -/
theorem toNat_deltaNext (d : Int) (p : Byte) : ((deltaNext d p).toNat : Int) = (byteInt p + d) % 128 := by
  have h1 := Int.emod_nonneg (byteInt p + d) (b := 128) (by decide)
  have h2 := Int.emod_lt_of_pos (byteInt p + d) (b := 128) (by decide)
  simp only [deltaNext, BitVec.toNat_ofNat]
  omega

/-- The recurrence of R104 and R173 as an equation between integers. -/
theorem eq_deltaNext_iff (d : Int) (u v : Byte) : v = deltaNext d u
    ↔ (v.toNat : Int) = ((u.toNat : Int) + d) % 128 := by
  rw [← show ((deltaNext d u).toNat : Int) = ((u.toNat : Int) + d) % 128 from toNat_deltaNext d u]
  constructor
  · rintro rfl; rfl
  · intro h; exact BitVec.eq_of_toNat_eq (by omega)

/-- Each later value of a progression follows from the one before it (R173). -/
theorem progression_step (d : Int) : ∀ n s i a b, (progression d n s)[i]? = some a
    → (progression d n s)[i+1]? = some b → b = deltaNext d a := by
  intro n; induction n with
  | zero => intro s i a b h; simp [progression] at h
  | succ n ih =>
    intro s i a b h1 h2
    cases i with
    | zero =>
      simp [progression] at h1 h2
      subst h1
      cases n with
      | zero => simp [progression] at h2
      | succ n => simpa [progression] using h2.symm
    | succ i => exact ih _ i a b (by simpa [progression] using h1) (by simpa [progression] using h2)

/-- Bytes that obey the recurrence are the progression of their first byte (R108). -/
theorem progression_eq_take (d : Int) : ∀ n s r, n ≤ (s::r).length → (∀ k u v, k + 1 < n → (s :: r)[k]? = some u
    → (s::r)[k+1]? = some v → v = deltaNext d u) → progression d n s = (s :: r).take n := by
  intro n
  induction n with
  | zero => intros; rfl
  | succ n ih =>
    intro s r hl h
    simp only [progression, List.take_succ_cons]
    congr 1
    cases n with
    | zero => rfl
    | succ n =>
      cases r with
      | nil => simp at hl
      | cons b t =>
        have : b = deltaNext d s := h 0 s b (by omega) rfl rfl
        rw [← this]
        exact ih b t (by simpa using hl) fun k u v hk hu hv => h (k+1) u v (by omega) (by simpa using hu) (by simpa using hv)

/-- `rep(unit, count)` has `len(unit) * count` bytes (R11). -/
theorem repeatUnit_length (u : List Byte) (c : Nat) : (repeatUnit u c).length = u.length * c := by
  simp [repeatUnit, Nat.mul_comm]

/-- `rep(unit, count)` repeats the unit (R11). -/
theorem repeatUnit_getElem? (u : List Byte) : ∀ c i, i < u.length * c → (repeatUnit u c)[i]? = u[i % u.length]? := by
  intro c
  induction c with
  | zero => intro i h; simp at h
  | succ c ih =>
    intro i h
    have e : repeatUnit u (c+1) = u ++ repeatUnit u c := by simp [repeatUnit, List.replicate_succ]
    rw [e]
    by_cases hi : i < u.length
    · rw [List.getElem?_append_left hi, Nat.mod_eq_of_lt hi]
    · rw [List.getElem?_append_right (by omega), ih (i - u.length) (by rw [Nat.mul_succ] at h; omega), ← Nat.mod_eq_sub_mod (by omega)]

/-- Consecutive exact repeats are the repeated unit (R113). -/
theorem repeatUnit_eq_take (r u : List Byte) : ∀ c, c * u.length ≤ r.length → (∀ k, k < c
    → (r.drop (k * u.length)).take u.length = u) → repeatUnit u c = r.take (u.length * c) := by
  intro c
  induction c with
  | zero => intros; simp [repeatUnit]
  | succ c ih =>
    intro hl h
    have e : repeatUnit u (c+1) = repeatUnit u c ++ u := by simp [repeatUnit, List.replicate_succ']
    rw [e, ih (by rw [Nat.succ_mul] at hl; omega) (fun k hk => h k (by omega)), Nat.mul_succ, List.take_add]
    congr 1
    have := h c (by omega)
    rw [Nat.mul_comm] at this
    exact this.symm

/-- Equal bytes are a repeated value (R102, R117). -/
theorem replicate_eq_take {r : List Byte} {n} {v : Byte} (hl : n ≤ r.length) (h : ∀ k b, k < n → r[k]? = some b
    → b = v) : List.replicate n v = r.take n := by
  apply List.ext_getElem?
  intro k
  rw [List.getElem?_take, List.getElem?_replicate]
  split
  · rename_i hk
    have : r[k]? = some r[k] := by simp
    rw [this, h k _ hk this]
  · rfl

/-- `inPalette` is membership in the palette (R12). -/
theorem inPalette_iff (pal : Vector Byte 8) (v) : inPalette pal v = true ↔ v ∈ pal.toList := by
  simp only [inPalette, paletteIndex, List.findIdx?_isSome, List.any_eq_true, beq_iff_eq]
  constructor
  · rintro ⟨x, hx, rfl⟩; exact hx
  · intro h; exact ⟨v, h, rfl⟩

/-- `paletteIndex` of a palette value is the least index, below 8, that holds it (R8, R12). -/
theorem paletteIndex_of_inPalette {pal : Vector Byte 8} {v} (h : inPalette pal v = true) :
    ∃ k, paletteIndex pal v = some k ∧ k < 8 ∧ pal.toList[k]? = some v ∧ ∀ j, j < k → pal.toList[j]? ≠ some v := by
  obtain ⟨k, hk⟩ := Option.isSome_iff_exists.1 h
  refine ⟨k, hk, ?_⟩
  unfold paletteIndex at hk
  rw [List.findIdx?_eq_some_iff_getElem] at hk
  obtain ⟨h1, h2, h3⟩ := hk
  refine ⟨by simpa using h1, ?_, fun j hj => ?_⟩
  · rw [List.getElem?_eq_getElem h1]
    simpa using h2
  · rw [List.getElem?_eq_getElem (by omega)]
    simpa using h3 j hj

end Sys2Proof.Machine
end

