-- ==== Sys2Proof/Laws/Evaluators.lean ====
section
/-! SUPPORT. One lemma per loop of the evaluators, and the six ways a token is selected. -/

namespace Sys2Proof.Machine

/-- Everything the shared counting loop can answer (R102, R110, R117). -/
theorem countWhile_spec (p : Byte → Bool) : ∀ cap r, countWhile p cap r ≤ cap ∧ countWhile p cap r ≤ r.length ∧
   (∀ k b, k < countWhile p cap r → r[k]? = some b → p b = true) ∧
   (countWhile p cap r < cap → ∀ b, r[countWhile p cap r]? = some b → p b = false) := by
  intro cap
  induction cap with
  | zero => intro r; simp [countWhile]
  | succ c ih =>
    intro r
    cases r with
    | nil => simp [countWhile]
    | cons b t =>
      simp only [countWhile]
      split
      · rename_i hb
        obtain ⟨h1, h2, h3, h4⟩ := ih t
        refine ⟨by omega, by simp; omega, fun k v hk hv => ?_, fun hlt v hv => h4 (by omega) v (by simpa using hv)⟩
        cases k with
        | zero => simp at hv; rw [← hv]; exact hb
        | succ k => exact h3 k v (by omega) (by simpa using hv)
      · rename_i hb
        simp [hb]

/-- The answer of the counting loop from its defining properties. -/
theorem countWhile_unique (p : Byte → Bool) {cap r n} (h1 : n ≤ cap) (h2 : n ≤ r.length) (h3 : ∀ k b, k < n
    → r[k]? = some b → p b = true)
    (h4 : n < cap → ∀ b, r[n]? = some b → p b = false) : countWhile p cap r = n := by
  obtain ⟨g1, g2, g3, g4⟩ := countWhile_spec p cap r
  rcases Nat.lt_trichotomy (countWhile p cap r) n with h | h | h
  · have hb : r[countWhile p cap r]? = some (r[countWhile p cap r]'(by omega)) := by simp
    have e1 := h3 _ _ h hb
    have e2 := g4 (by omega) _ hb
    rw [e1] at e2; cases e2
  · exact h
  · have hb : r[n]? = some (r[n]'(by omega)) := by simp
    have e1 := g3 _ _ h hb
    have e2 := h4 (by omega) _ hb
    rw [e1] at e2; cases e2

/-- What ZeroRun proposes (R102). -/
theorem zeroRunAt_eq_some {r t} (h : zeroRunAt r = some t) : t = .zeroRun (countWhile (· == 0) 255 r)
    ∧ 3 ≤ countWhile (· == 0) 255 r := by
  simp only [zeroRunAt] at h
  split at h
  · cases h; exact ⟨rfl, by assumption⟩
  · cases h

/-- What NibblePack proposes (R110). -/
theorem nibbleAt_eq_some {r t} (h : nibbleAt r = some t) :
    ∃ n, n = countWhile (fun b => decide (b.toNat < 16)) 62 r ∧ t = .nibble (r.take n) ∧ 4 ≤ n := by
  simp only [nibbleAt] at h
  split at h
  · cases h; exact ⟨_, rfl, rfl, by assumption⟩
  · cases h

/-- Everything the extension loop of R104 can answer. -/
theorem deltaCount_spec (d : Int) : ∀ cap p r, deltaCount d cap p r ≤ cap ∧ deltaCount d cap p r ≤ r.length ∧
   (∀ k u v, k < deltaCount d cap p r → (p :: r)[k]? = some u → (p::r)[k+1]? = some v → v = deltaNext d u) ∧
   (deltaCount d cap p r < cap → ∀ u v, (p::r)[deltaCount d cap p r]? = some u
       → (p::r)[deltaCount d cap p r + 1]? = some v → v ≠ deltaNext d u) := by
  intro cap
  induction cap with
  | zero => intro p r; simp [deltaCount]
  | succ c ih =>
    intro p r
    cases r with
    | nil => simp [deltaCount]
    | cons b t =>
      simp only [deltaCount]
      split
      · rename_i hb
        obtain ⟨h1, h2, h3, h4⟩ := ih b t
        refine ⟨by omega, by simp; omega, fun k u v hk hu hv => ?_, fun hlt u v hu hv => ?_⟩
        · cases k with
          | zero => simp at hu hv; rw [← hu, ← hv]; exact hb
          | succ k => exact h3 k u v (by omega) (by simpa using hu) (by simpa using hv)
        · exact h4 (by omega) u v (by simpa using hu) (by simpa using hv)
      · rename_i hb
        refine ⟨by omega, by omega, fun k u v hk => by omega, fun _ u v hu hv => ?_⟩
        simp at hu hv
        rw [← hu, ← hv]; exact hb

/-- The answer of the extension loop from its defining properties. -/
theorem deltaCount_unique (d : Int) {cap p r n} (h1 : n ≤ cap) (h2 : n ≤ r.length)
   (h3 : ∀ k u v, k < n → (p :: r)[k]? = some u → (p::r)[k+1]? = some v → v = deltaNext d u)
   (h4 : n < cap → ∀ u v, (p::r)[n]? = some u → (p::r)[n + 1]? = some v
       → v ≠ deltaNext d u) : deltaCount d cap p r = n := by
  obtain ⟨g1, g2, g3, g4⟩ := deltaCount_spec d cap p r
  rcases Nat.lt_trichotomy (deltaCount d cap p r) n with h | h | h
  · generalize hm : deltaCount d cap p r = m at *
    have hu : (p::r)[m]? = some ((p::r)[m]'(by simp; omega)) := by simp
    have hv : (p::r)[m+1]? = some ((p::r)[m+1]'(by simp; omega)) := by simp
    exact absurd (h3 m _ _ h hu hv) (g4 (by omega) _ _ hu hv)
  · exact h
  · have hu : (p::r)[n]? = some ((p::r)[n]'(by simp; omega)) := by simp
    have hv : (p::r)[n+1]? = some ((p::r)[n+1]'(by simp; omega)) := by simp
    exact absurd (g3 n _ _ h hu hv) (h4 (by omega) _ _ hu hv)

/-- The adjusted length is no longer, still at least 3, and no forbidden one (R107). -/
theorem avoidShadowed_spec (n) : avoidShadowed n ≤ n ∧ (3 ≤ n → 3 ≤ avoidShadowed n) ∧ avoidShadowed n ≠ 32
    ∧ avoidShadowed n ≠ 48 ∧ avoidShadowed n ≠ 49 ∧ avoidShadowed n ≠ 50 := by
  unfold avoidShadowed
  split
  · omega
  · split <;> omega

/-- Everything the loop of the literal fallback can answer (R120, R122). -/
theorem literalCount_spec : ∀ cap r, literalCount cap r ≤ cap ∧ literalCount cap r ≤ r.length ∧
   (∀ k, k < literalCount cap r → run3At (r.drop k) = false ∧ deltaAt (r.drop k) = none) ∧
   (literalCount cap r < cap → literalCount cap r < r.length → run3At (r.drop (literalCount cap r)) = true
       ∨ deltaAt (r.drop (literalCount cap r)) ≠ none) := by
  intro cap
  induction cap with
  | zero => intro r; simp [literalCount]
  | succ c ih =>
    intro r
    cases r with
    | nil => simp [literalCount]
    | cons b t =>
      simp only [literalCount]
      split
      · rename_i hb
        refine ⟨by omega, by omega, fun k hk => by omega, fun _ _ => ?_⟩
        simp only [Bool.or_eq_true, Option.isSome_iff_ne_none] at hb
        exact hb
      · rename_i hb
        obtain ⟨h1, h2, h3, h4⟩ := ih t
        refine ⟨by omega, by simp; omega, fun k hk => ?_, fun hlt hlt' => ?_⟩
        · cases k with
          | zero =>
            simp at hb
            exact ⟨by simpa using hb.1, by simpa using hb.2⟩
          | succ k => simpa using h3 k (by omega)
        · simpa using h4 (by omega) (by simpa using hlt')

/-- Everything the repeat counter of R112 can answer. -/
theorem unitCount_spec (u : List Byte) : ∀ cap r, unitCount u cap r ≤ cap
    ∧ unitCount u cap r * u.length ≤ r.length ∧
   (∀ c, c < unitCount u cap r → (r.drop (c * u.length)).take u.length = u) ∧
   (unitCount u cap r < cap → (unitCount u cap r + 1) * u.length ≤ r.length
       → (r.drop (unitCount u cap r * u.length)).take u.length ≠ u) := by
  intro cap
  induction cap with
  | zero => intro r; simp [unitCount]
  | succ c ih =>
    intro r
    simp only [unitCount]
    split
    · rename_i hb
      obtain ⟨h1, h2, h3, h4⟩ := ih (r.drop u.length)
      simp only [List.length_drop] at h2 h4
      generalize unitCount u c (r.drop u.length) = m at *
      have e : ∀ k, (k+1) * u.length = u.length + k * u.length := fun k => by rw [Nat.succ_mul]; omega
      refine ⟨by omega, by rw [e]; omega, fun k hk => ?_, fun hlt hlt' => ?_⟩
      · cases k with
        | zero => simpa using hb.2
        | succ k =>
          have := h3 k (by omega)
          rw [List.drop_drop] at this
          rwa [e]
      · have := h4 (by omega) (by have := e (m+1); omega)
        rw [List.drop_drop] at this
        rwa [e]
    · rename_i hb
      refine ⟨by omega, by simp, fun k hk => by omega, fun _ h => ?_⟩
      simp at h ⊢
      intro e
      exact hb ⟨h, e⟩

/-- What the loop over candidate unit lengths leaves: the first candidate with the highest score (R112, R115). -/
theorem foldl_tryUnit_spec (r : List Byte) : ∀ (l : List Nat) (b : Best), l.Pairwise (· < ·) →
    let f := l.foldl (tryUnit r) b
    (f = b ∨ ∃ p ∈ l, 2 * p ≤ r.length ∧ f = ⟨p, patternCount r p, patternScore p (patternCount r p)⟩
        ∧ b.score < f.score ∧
      ∀ q ∈ l, q < p → 2*q ≤ r.length → patternScore q (patternCount r q) < f.score) ∧
    b.score ≤ f.score ∧ (∀ q ∈ l, 2 * q ≤ r.length → patternScore q (patternCount r q) ≤ f.score) := by
  intro l
  induction l with
  | nil => intro b _; simp
  | cons p l ih =>
    intro b hl
    obtain ⟨hp, hl⟩ := List.pairwise_cons.1 hl
    simp only [List.foldl_cons]
    by_cases hc : 2 * p ≤ r.length ∧ b.score < patternScore p (patternCount r p)
    · have e : tryUnit r b p = ⟨p, patternCount r p, patternScore p (patternCount r p)⟩ := by
        simp [tryUnit, hc.1, hc.2]
      rw [e]
      obtain ⟨h1, h2, h3⟩ := ih ⟨p, patternCount r p, patternScore p (patternCount r p)⟩ hl
      generalize l.foldl (tryUnit r) ⟨p, patternCount r p, patternScore p (patternCount r p)⟩ = f at *
      simp only at h1 h2 h3
      refine ⟨.inr ?_, by omega, fun q hq hq2 => ?_⟩
      · rcases h1 with rfl | ⟨p', hp', hlen, hf, hlt, hall⟩
        · refine ⟨p, by simp, hc.1, rfl, hc.2, fun q hq hqp => ?_⟩
          rcases List.mem_cons.1 hq with rfl | hq
          · omega
          · have := hp q hq; omega
        · refine ⟨p', by simp [hp'], hlen, hf, by omega, fun q hq hqp hq2 => ?_⟩
          rcases List.mem_cons.1 hq with rfl | hq
          · exact hlt
          · exact hall q hq hqp hq2
      · rcases List.mem_cons.1 hq with rfl | hq
        · exact h2
        · exact h3 q hq hq2
    · have e : tryUnit r b p = b := by
        unfold tryUnit
        split
        · rename_i h; simp only [not_and] at hc; simp [hc h]
        · rfl
      rw [e]
      obtain ⟨h1, h2, h3⟩ := ih b hl
      generalize l.foldl (tryUnit r) b = f at *
      refine ⟨?_, h2, fun q hq hq2 => ?_⟩
      · rcases h1 with rfl | ⟨p', hp', hlen, hf, hlt, hall⟩
        · exact .inl rfl
        · refine .inr ⟨p', by simp [hp'], hlen, hf, hlt, fun q hq hqp hq2 => ?_⟩
          rcases List.mem_cons.1 hq with rfl | hq
          · simp only [not_and] at hc
            have := hc hq2; omega
          · exact hall q hq hqp hq2
      · rcases List.mem_cons.1 hq with rfl | hq
        · simp only [not_and] at hc
          have := hc hq2; omega
        · exact h3 q hq hq2

/-- The candidates are 2 to 15 (R114). -/
theorem mem_unitLengths (p : Nat) : p ∈ unitLengths ↔ 2 ≤ p ∧ p ≤ 15 := by
  simp [unitLengths]
  constructor
  · rintro ⟨a, h, rfl⟩; omega
  · intro h; exact ⟨p-2, by omega, by omega⟩

/-- The six ways a token is selected (R130). -/
theorem selectAt_cases (pal) (r : List Byte) :
   zeroRunAt r = some (selectAt pal r) ∨
   (zeroRunAt r = none ∧ deltaAt r = some (selectAt pal r)) ∨
   (zeroRunAt r = none ∧ deltaAt r = none ∧ nibbleAt r = some (selectAt pal r)) ∨
   (zeroRunAt r = none ∧ deltaAt r = none ∧ nibbleAt r = none ∧ patternAt r = some (selectAt pal r)) ∨
   (zeroRunAt r = none ∧ deltaAt r = none ∧ nibbleAt r = none ∧ patternAt r = none
       ∧ runAt pal r = some (selectAt pal r)) ∨
   (zeroRunAt r = none ∧ deltaAt r = none ∧ nibbleAt r = none ∧ patternAt r = none ∧ runAt pal r = none
       ∧ selectAt pal r = literalAt r) := by
  unfold selectAt
  cases zeroRunAt r with
  | some t => simp
  | none =>
    cases deltaAt r with
    | some t => simp
    | none =>
      cases nibbleAt r with
      | some t => simp
      | none =>
        cases patternAt r with
        | some t => simp
        | none =>
          cases runAt pal r with
          | some t => simp
          | none => simp

end Sys2Proof.Machine
end

