-- ==== Sys2Proof/Laws/Packer.lean ====
section
/-! SUPPORT. The bytes the packer forms. -/

namespace Sys2Proof.Machine

/-- The control byte of each mode as the packer forms it (R142 to R145). -/
theorem trunc8_control (n : Nat) (h : n ≤ 63) : trunc8 (0 ||| n) = controlByte 0 (BitVec.ofNat 6 n)
    ∧ trunc8 (0x40 ||| n) = controlByte 1 (BitVec.ofNat 6 n)
        ∧ trunc8 (0x80 ||| n) = controlByte 2 (BitVec.ofNat 6 n)
            ∧ trunc8 (0xC0 ||| n) = controlByte 3 (BitVec.ofNat 6 n) := by
  have : ∀ n : Fin 64, trunc8 (0 ||| n.1) = controlByte 0 (BitVec.ofNat 6 n.1)
      ∧ trunc8 (0x40 ||| n.1) = controlByte 1 (BitVec.ofNat 6 n.1)
          ∧ trunc8 (0x80 ||| n.1) = controlByte 2 (BitVec.ofNat 6 n.1)
              ∧ trunc8 (0xC0 ||| n.1) = controlByte 3 (BitVec.ofNat 6 n.1) := by decide +kernel
  exact this ⟨n, by omega⟩

/-- The info byte as the packer forms it (R86, R147, R148). -/
theorem trunc8_info (a b : Nat) (ha : a ≤ 15)
    (hb : b ≤ 15) : trunc8 ((a <<< 4) ||| b) = joinNibbles (BitVec.ofNat 4 a) (BitVec.ofNat 4 b) ∧ b &&& 15 = b := by
  have : ∀ a b : Fin 16, trunc8 ((a.1 <<< 4) ||| b.1) = joinNibbles (BitVec.ofNat 4 a.1) (BitVec.ofNat 4 b.1)
      ∧ b.1 &&& 15 = b.1 := by decide +kernel
  exact this ⟨a, by omega⟩ ⟨b, by omega⟩

/-- ceil(n/2) packed bytes (R145). -/
theorem packNibbles_length (v : List Byte) : (packNibbles v).length = (v.length + 1) / 2 := by
  fun_induction packNibbles v <;> simp_all <;> omega

/-- Packing and unpacking nibbles (R85, R145). -/
theorem unpack_packNibbles (v : List Byte)
    (h : ∀ b ∈ v, b.toNat ≤ 15) : (unpackNibbles (packNibbles v)).take v.length = v := by
  have key : ∀ a b : Fin 16, nibbleByte (hiNibble (trunc8 ((a.1 <<< 4) ||| b.1))) = BitVec.ofNat 8 a.1
      ∧ nibbleByte (loNibble (trunc8 ((a.1 <<< 4) ||| b.1))) = BitVec.ofNat 8 b.1 ∧ nibbleByte
          (hiNibble (trunc8 (a.1 <<< 4))) = BitVec.ofNat 8 a.1 := by decide +kernel
  fun_induction packNibbles v with
  | case1 => rfl
  | case2 a =>
    have ha := h a (by simp)
    have := (key ⟨a.toNat, by omega⟩ 0).2.2
    simp [unpackNibbles] at this ⊢
    rw [this]
  | case3 a b t ih =>
    have ha := h a (by simp)
    have hb := h b (by simp)
    have k := key ⟨a.toNat, by omega⟩ ⟨b.toNat, by omega⟩
    have := ih fun c hc => h c (by simp [hc])
    simp [unpackNibbles] at this k ⊢
    exact ⟨k.1, k.2.1, this⟩

/-- Which packed byte, and which half of it, holds each value; the spare half of an odd number is 0 (R85, R145). -/
theorem packNibbles_getElem? (v : List Byte) (h : ∀ b ∈ v, b.toNat ≤ 15) :
    (∀ (j : Nat) (a : Byte), v[j]? = some a → ∃ b, (packNibbles v)[j / 2]? = some b ∧
      a.toNat = if j % 2 = 0 then b.toNat / 16 else b.toNat % 16) ∧
    (v.length % 2 = 1 → ∃ b, (packNibbles v)[v.length / 2]? = some b ∧ b.toNat % 16 = 0) := by
  have key : ∀ a b : Fin 16, (trunc8 ((a.1 <<< 4) ||| b.1)).toNat / 16 = a.1
      ∧ (trunc8 ((a.1 <<< 4) ||| b.1)).toNat % 16 = b.1 := by decide +kernel
  fun_induction packNibbles v with
  | case1 => simp
  | case2 a =>
    have k := key ⟨a.toNat, by have := h a (by simp); omega⟩ 0
    simp only [Fin.val_zero, Nat.or_zero] at k
    refine ⟨fun j c hj => ?_, fun _ => ⟨_, by simp, k.2⟩⟩
    match j, hj with
    | 0, hj => cases hj; exact ⟨_, rfl, k.1.symm⟩
  | case3 a b t ih =>
    have k := key ⟨a.toNat, by have := h a (by simp); omega⟩ ⟨b.toNat, by have := h b (by simp); omega⟩
    obtain ⟨hv, hp⟩ := ih fun c hc => h c (by simp [hc])
    refine ⟨fun j c hj => ?_, fun ho => ?_⟩
    · match j, hj with
      | 0, hj => cases hj; exact ⟨_, rfl, k.1.symm⟩
      | 1, hj => cases hj; exact ⟨_, rfl, k.2.symm⟩
      | j + 2, hj => simpa [Nat.add_div_right] using hv j c (by simpa using hj)
    · have e : (t.length + 1 + 1) / 2 = t.length / 2 + 1 := by omega
      simpa [e] using hp (by simp at ho; omega)

end Sys2Proof.Machine
end

