-- ==== Sys2Proof/Laws/PerInstr.lean ====
section
/-! SUPPORT. Families of statements made per instruction, one lemma per constructor: each is about the token as it is
written in a stream (R74). -/

namespace Sys2Proof.Laws

/-- The row of the opcode table a token belongs to (R72, R73). -/
def row : Instr → Row
  | .pattern _ _ => .pattern
  | .zeroRun _   => .zeroRun
  | .reservedF1  => .reservedF1
  | .commonRun _ _ => .commonRun
  | .literal _   => .literal
  | .nibble _ _  => .nibble
  | .run _ _     => .run
  | .delta _ _ _ => .delta

/-- Control byte first (R54 (1)): the encoding of a well-formed token begins with a control byte of the token's own
row, the four sentinels included (R71). -/
def ControlFirst.Statement (i : Instr) : Prop :=
  i.wellFormed = true → ∃ c t, encode i = c :: t ∧ rowOf c = row i

theorem ControlFirst.pattern (count : BitVec 4) (unit : List Byte) : ControlFirst.Statement (.pattern count unit) :=
  fun _ => ⟨_, _, rfl, rfl⟩

theorem ControlFirst.zeroRun (n : Byte) : ControlFirst.Statement (.zeroRun n) := fun _ => ⟨_, _, rfl, rfl⟩

theorem ControlFirst.reservedF1 : ControlFirst.Statement .reservedF1 := fun _ => ⟨_, _, rfl, rfl⟩

theorem ControlFirst.commonRun (n k : BitVec 4) : ControlFirst.Statement (.commonRun n k) :=
  fun _ => ⟨_, _, rfl, rfl⟩

theorem ControlFirst.literal (bytes : List Byte) : ControlFirst.Statement (.literal bytes) :=
  fun _ => ⟨_, _, rfl, rowOf_controlByte (m := 0) fun h => absurd h (by decide)⟩

theorem ControlFirst.nibble (n : BitVec 6) (packed : List Byte) : ControlFirst.Statement (.nibble n packed) :=
  fun _ => ⟨_, _, rfl, rowOf_controlByte (m := 1) fun h => absurd h (by decide)⟩

theorem ControlFirst.run (n : BitVec 6) (v : Byte) : ControlFirst.Statement (.run n v) :=
  fun _ => ⟨_, _, rfl, rowOf_controlByte (m := 2) fun h => absurd h (by decide)⟩

theorem ControlFirst.delta (n : BitVec 6) (start db : Byte) : ControlFirst.Statement (.delta n start db) :=
  fun h => ⟨_, _, rfl, rowOf_controlByte (m := 3) fun _ => by simpa [Instr.wellFormed] using h⟩

/-- Trailing bytes (R76, R94): a well-formed token is as long as its row and its own fields say, its control byte
counted. -/
def EncodeSize.Statement (i : Instr) : Prop :=
  i.wellFormed = true → (encode i).length =
    match i with
    | .pattern _ unit => 2 + unit.length
    | .zeroRun _ => 2
    | .reservedF1 => 1
    | .commonRun _ _ => 2
    | .literal bytes => 1 + bytes.length
    | .nibble n _ => 1 + (n.toNat + 1) / 2
    | .run _ _ => 2
    | .delta _ _ _ => 3

theorem EncodeSize.pattern (count : BitVec 4) (unit : List Byte) : EncodeSize.Statement (.pattern count unit) :=
  fun _ => by simp [encode]; omega

theorem EncodeSize.zeroRun (n : Byte) : EncodeSize.Statement (.zeroRun n) := fun _ => rfl

theorem EncodeSize.reservedF1 : EncodeSize.Statement .reservedF1 := fun _ => rfl

theorem EncodeSize.commonRun (n k : BitVec 4) : EncodeSize.Statement (.commonRun n k) := fun _ => rfl

theorem EncodeSize.literal (bytes : List Byte) : EncodeSize.Statement (.literal bytes) :=
  fun _ => by simp [encode]; omega

theorem EncodeSize.nibble (n : BitVec 6) (packed : List Byte) : EncodeSize.Statement (.nibble n packed) :=
  fun h => by
    have hl : packed.length = (n.toNat + 1) / 2 := by simpa [Instr.wellFormed] using h
    simp [encode, hl]; omega

theorem EncodeSize.run (n : BitVec 6) (v : Byte) : EncodeSize.Statement (.run n v) := fun _ => rfl

theorem EncodeSize.delta (n : BitVec 6) (start db : Byte) : EncodeSize.Statement (.delta n start db) := fun _ => rfl

end Sys2Proof.Laws
end

