-- ==== Sys2Proof/Tests/Slice0.lean ====
section
/-! SUPPORT. Tests and witnesses. Expected bytes are the spec's: the examples of R102 to R178 and the vectors of
95_test_vectors.md; where a comment says "from the layout", they are written out from R74. The palette is the example
palette of 95_test_vectors.md, which is no statement about the hardware (R8). -/

namespace Sys2Proof.Tests

open Sys2Proof Sys2Proof.Machine

/-! ## Helpers -/

/-- The example palette `PAL_EX` of 95_test_vectors.md. -/
def palEx : Vector Byte 8 := #v[0xFF, 0x00, 0x20, 0x30, 0x7F, 0x80, 0x0A, 0x41]

/-- An operation just started on the input `x` (R191), with 64 bytes of `IN`, `cap` bytes of `OUT` and the host's moves
to come. -/
def started (op : Op) (cap : Nat) (x : List Byte) (host : List HostMove) : State where
  par    := ⟨64, cap, palEx⟩
  op     := op
  inLen  := x.length
  status := .busy
  err    := none
  outLen := 0
  pos    := 0
  olen   := 0
  inMem  := Memory.writeBytes [] 0 x
  outMem := []
  host   := host

/-- The machine after reset with the host's moves to come. -/
def fresh (host : List HostMove) : State := { State.resetOf ⟨64, 64, palEx⟩ with host := host }

/-- The next state, if there is one. -/
def after : Host.Outcome State Fault Refusal → Option State
  | .next t => some t
  | .fault _ => none
  | .refused _ => none

/-- What a test looks at: `POS`, `OLEN`, the bytes of `OUT` so far, `STATUS` and `ERR`. -/
structure Seen where
  pos    : Nat
  olen   : Nat
  out    : Option (List Byte)
  status : Status
  err    : Option CodecError
deriving DecidableEq, Repr

/-- What a step leaves. -/
def outcome (s : State) : Option Seen :=
  (after (step s)).map fun t => ⟨t.pos, t.olen, t.outMem.readBytes 0 t.olen, t.status, t.err⟩

/-- One DECOMPRESS step on a stream. -/
def decOutcome (cap : Nat) (x : List Byte) : Option Seen := outcome (started .decompress cap x [])

/-- One COMPRESS step on an input. -/
def encOutcome (cap : Nat) (x : List Byte) : Option Seen := outcome (started .compress cap x [])

/-! ## WellFormed: one ill-formed term for each check -/

theorem test_wf_pattern_unit : (Instr.pattern 2 (List.replicate 16 0)).wellFormed = false := by decide
theorem test_wf_literal_length : (Instr.literal (List.replicate 64 0)).wellFormed = false := by decide
theorem test_wf_nibble_packed : (Instr.nibble 5 [0x1F, 0x2E]).wellFormed = false := by decide
theorem test_wf_delta_shadowed :
    [32, 48, 49, 50].map (fun n => (Instr.delta (BitVec.ofNat 6 n) 0x20 0x13).wellFormed) =
      [false, false, false, false] := by decide
theorem test_wf_longest :
    [Instr.pattern 15 (List.replicate 15 0), .literal (List.replicate 63 0), .nibble 63 (List.replicate 32 0),
      .delta 63 0xFF 0xFF, .commonRun 15 15].map Instr.wellFormed = [true, true, true, true, true] := by decide

/-! ## Decode: words written out from the layouts of R74 -/

-- Literal: mode 00, n = 2: 0b00_000010, then the two raw bytes (R142).
theorem test_decode_literal : decodeToken [0b00000010, 0x03, 0x74] = .ok (.literal [0x03, 0x74], []) := by rfl
-- Nibble: mode 01, n = 5: 0b01_000101, then 1F 2E 30 (R145).
theorem test_decode_nibble :
    decodeToken [0b01000101, 0x1F, 0x2E, 0x30] = .ok (.nibble 5 [0x1F, 0x2E, 0x30], []) := by rfl
-- Run: mode 10, n = 4: 0b10_000100, then the value (R143).
theorem test_decode_run : decodeToken [0b10000100, 0x64] = .ok (.run 4 0x64, []) := by rfl
-- Delta: mode 11, n = 5: 0b11_000101, then start and d + 16 (R144).
theorem test_decode_delta : decodeToken [0b11000101, 0x10, 0x13] = .ok (.delta 5 0x10 0x13, []) := by rfl
-- Delta of length 63, the last control byte of all (R88).
theorem test_decode_delta_last : decodeToken [0xFF, 0x10, 0x11, 0xAA] = .ok (.delta 63 0x10 0x11, [0xAA]) := by rfl
-- ZeroRun: the sentinel, then the count byte (R146).
theorem test_decode_zeroRun : decodeToken [0xF0, 0x05] = .ok (.zeroRun 5, []) := by rfl
-- Pattern: the sentinel, info 0010_1010 (len 2, count 10), then the unit (R148).
theorem test_decode_pattern :
    decodeToken [0xE0, 0b00101010, 0xAB, 0xCD] = .ok (.pattern 10 [0xAB, 0xCD], []) := by rfl
-- CommonRun: the sentinel, info 0011_0010 (n 3, k 2) (R147).
theorem test_decode_commonRun : decodeToken [0xF2, 0b00110010] = .ok (.commonRun 3 2, []) := by rfl
-- The reserved escape is a token of its own, even as the last byte (R178).
theorem test_decode_reservedF1 : decodeToken [0xF1] = .ok (.reservedF1, []) := by rfl
-- The two stages of Pattern's availability test (R176), and the source's own test of R212.
theorem test_decode_truncated :
    decodeToken [0xE0] = .error .truncated ∧ decodeToken [0xE0, 0x2A, 0xAB] = .error .truncated ∧
    decodeToken [0xC5, 0x10] = .error .truncated ∧ decodeToken [0x80] = .error .truncated ∧
    decodeToken [] = .error .noControlByte := ⟨rfl, rfl, rfl, rfl, rfl⟩
-- The table's numbering: bits 7..0 are the control byte.
theorem test_decodeTableWord :
    decodeTableWord 16 0x05F0 = some (.zeroRun 5) ∧ decodeTableWord 8 0xF1 = some .reservedF1 ∧
    decodeTableWord 24 0x1310C5 = some (.delta 5 0x10 0x13) ∧
    decodeTableWord 32 0xCDAB2AE0 = some (.pattern 10 [0xAB, 0xCD]) := by decide +kernel

/-! ## One step of DECOMPRESS per token (R170 to R178) -/

theorem test_step_literal :
    decOutcome 64 [0x02, 0x03, 0x74] = some ⟨3, 2, some [0x03, 0x74], .busy, none⟩ := by decide +kernel
theorem test_step_nibble :
    decOutcome 64 [0x45, 0x1F, 0x2E, 0x30] = some ⟨4, 5, some [0x01, 0x0F, 0x02, 0x0E, 0x03], .busy, none⟩ := by
  decide +kernel
theorem test_step_run :
    decOutcome 64 [0x84, 0x64] = some ⟨2, 4, some [0x64, 0x64, 0x64, 0x64], .busy, none⟩ := by decide +kernel
-- A decreasing progression wraps from 2 to 125 (R173).
theorem test_step_delta :
    decOutcome 64 [0xC4, 0x02, 0x0B] = some ⟨3, 4, some [0x02, 0x7D, 0x78, 0x73], .busy, none⟩ := by decide +kernel
theorem test_step_zeroRun :
    decOutcome 64 [0xF0, 0x05] = some ⟨2, 5, some [0, 0, 0, 0, 0], .busy, none⟩ := by decide +kernel
theorem test_step_pattern :
    decOutcome 64 [0xE0, 0x23, 0xAB, 0xCD] =
      some ⟨4, 6, some [0xAB, 0xCD, 0xAB, 0xCD, 0xAB, 0xCD], .busy, none⟩ := by decide +kernel
theorem test_step_commonRun :
    decOutcome 64 [0xF2, 0x32] = some ⟨2, 3, some [0x20, 0x20, 0x20], .busy, none⟩ := by decide +kernel
-- The index is checked whatever n is (R177).
theorem test_step_commonRun_index :
    decOutcome 64 [0xF2, 0x08] = some ⟨0, 0, some [], .failed, some .invalidPaletteIndex⟩ := by decide +kernel
theorem test_step_reservedF1 :
    decOutcome 64 [0xF1] = some ⟨0, 0, some [], .failed, some .unknownEscape⟩ := by decide +kernel
-- A token that is truncated and too large for OUT is Truncated (R166).
theorem test_step_truncated_first :
    decOutcome 0 [0x84] = some ⟨0, 0, some [], .failed, some .truncated⟩ := by decide +kernel
theorem test_step_does_not_fit :
    decOutcome 3 [0x84, 0x64] = some ⟨0, 0, some [], .failed, some .allocationFailure⟩ := by decide +kernel

/-! ## COMPRESS: the selector and the packer -/

-- R102, R104, R110, R120: the examples of the evaluators.
theorem test_select_examples :
    select palEx [0x00, 0x00, 0x00, 0x00, 0x00, 0x56] 0 = .zeroRun 5 ∧
    select palEx [0x10, 0x13, 0x16, 0x19, 0x1C, 0x40] 0 = .delta 0x10 3 5 ∧
    select palEx [0x01, 0x0F, 0x02, 0x0E, 0x03, 0x80] 0 = .nibble [1, 15, 2, 14, 3] ∧
    select palEx [0x64, 0x64, 0x64, 0x64, 0x00] 0 = .run 0x64 4 ∧
    select palEx [0x03, 0x74, 0x04, 0x04, 0x04, 0x35] 0 = .literal [0x03, 0x74] := by decide +kernel
-- R114: the count is capped before scoring.
theorem test_select_pattern_cap :
    select palEx (List.replicate 20 [0xAB, 0xCD]).flatten 0 = .pattern [0xAB, 0xCD, 0xAB, 0xCD] 10 := by
  decide +kernel
-- R115: the smaller of two unit lengths with the same score.
theorem test_select_pattern_tie :
    select palEx (List.replicate 40 0x64) 0 = .pattern [0x64, 0x64, 0x64] 13 := by decide +kernel
-- R103: 300 zeros.
theorem test_compress_long_zeros :
    compress palEx (List.replicate 300 0) = .ok [0xF0, 0xFF, 0xF0, 45] := by decide +kernel
-- R137: the bound is reached.
theorem test_step_compress : encOutcome 64 [0x41] = some ⟨1, 2, some [0x01, 0x41], .busy, none⟩ := by decide +kernel
theorem test_step_compress_does_not_fit :
    encOutcome 1 [0x41] = some ⟨0, 0, some [], .failed, some .allocationFailure⟩ := by decide +kernel
-- R92: the textual form.
theorem test_token_text :
    tokenText (.delta 0x14 (-5) 7) = "Delta(14, -5, 7)".toList ∧
    streamText [.literal [0x03, 0x74], .zeroRun 5] = "Literal([03, 74]) | ZeroRun(5)".toList := by decide +kernel

/-! ## The host's use of the block (R190), and a word placed at the cursor -/

/-- The moves of R190 (1) to (4) for DECOMPRESS of `84 64`. -/
def session : List HostMove :=
  [.writeIn 0 0x84, .writeIn 1 0x64, .writeInLen 2, .writeOp .decompress, .start, .wait]

-- Five moves, one token, the finishing transition, the end of the wait: eight steps from reset.
theorem test_session :
    (after (Host.Core.run Sys2Proof.core 8 (fresh session))).bind hostResult =
      some [0x64, 0x64, 0x64, 0x64] := by decide +kernel

-- From State.reset itself, whatever the palette and the capacities: the word runs as the first instruction.
theorem test_withFetchWord :
    (after (step (State.reset.withFetchWord 16 0x05F0))).map (fun t => (t.pos, t.olen, t.status)) =
      some (2, 5, .busy) := by decide +kernel

/-! ## Witnesses: states and operands that meet the hypotheses of each statement -/

/-- `Inv` of a just started operation, from its decidable parts. -/
theorem started_inv (op : Op) (cap : Nat) (x : List Byte) (host : List HostMove)
    (width : x.length < 2 ^ lenW ⟨64, cap, palEx⟩) (len : x.length ≤ 64)
    (form : (started op cap x host).inMem.wf) (bounds : ∀ cell ∈ (started op cap x host).inMem, cell.1 < 64)
    (input : (started op cap x host).input = some x) : Inv (started op cap x host) where
  palette := show (0x64 : Byte) ∉ palEx.toList by decide
  inLenWidth := width
  posCap := Nat.zero_le _
  olenCap := Nat.zero_le _
  outLenCap := Nat.zero_le _
  inForm := form
  outForm := .nil
  inBounds := bounds
  outBounds := fun _ h => absurd h (List.not_mem_nil)
  errFailed := by simp [started]
  outLenHidden := fun _ => rfl
  outLenDone := fun h => by cases h
  busyCursor := fun _ => ⟨Nat.zero_le _, len⟩
  busyInput := fun _ => ⟨x, input⟩
  outWritten := fun _ => ⟨[], rfl⟩

/-- The stream `84 64`, ready to be expanded. -/
def runState : State := started .decompress 64 [0x84, 0x64] []

theorem runState_inv : Inv runState :=
  started_inv _ _ _ _ (by decide) (by decide) (by decide) (by decide) (by rfl)

theorem witness_Started_decompress : Started .decompress [0x84, 0x64] runState :=
  ⟨runState_inv, rfl, rfl, rfl, rfl, rfl, by rfl⟩

theorem witness_Started_compress : Started .compress [0x41] (started .compress 64 [0x41] []) :=
  ⟨started_inv _ _ _ _ (by decide) (by decide) (by decide) (by decide) (by rfl), rfl, rfl, rfl, rfl, rfl, by rfl⟩

theorem witness_Started_empty : Started .decompress [] (started .decompress 0 [] []) :=
  ⟨started_inv _ _ _ _ (by decide) (by decide) (by decide) (by decide) (by rfl), rfl, rfl, rfl, rfl, rfl, by rfl⟩

-- ResetAbandonsOperation: a reset given while an operation runs.
theorem witness_ResetAbandonsOperation :
    (started .decompress 64 [0x84, 0x64] [.reset]).host = .reset :: [] ∧
    (started .decompress 64 [0x84, 0x64] [.reset]).status = .busy := by decide

-- ResetMeetsInvariant.
theorem witness_ResetMeetsInvariant : (Params.mk 64 64 palEx).admissible := by decide

-- StepKeepsInvariant, ParametersNeverChange, EngineOnlyAppendsToOutput: an engine step from an invariant state.
theorem witness_StepKeepsInvariant : Inv runState ∧ ∃ t, step runState = .next t := ⟨runState_inv, _, rfl⟩

-- OutputIsExactlyTheTokensSoFar.
theorem witness_OutputIsExactlyTheTokensSoFar :
    OutputPrefix runState ∧ runState.status = .busy ∧ ∃ t, step runState = .next t :=
  ⟨fun _ => ⟨by decide, fun _ _ => ⟨[], rfl, Expanded.nil⟩⟩, rfl, _, rfl⟩

-- StartBeginsOperation: the four clauses.
theorem witness_StartBeginsOperation :
    (started .decompress 64 [0x84] [.start]).host = .start :: [] ∧
    (started .decompress 64 [0x84] [.start]).status = .busy ∧
    (let s := { started .decompress 64 [0x84] [.start] with status := .idle }
     s.status ≠ .busy ∧ s.inLen ≤ s.par.inCap ∧ ∀ i, i < s.inLen → (s.inMem.read i).isSome) ∧
    (let s := { fresh [.start] with inLen := 65 }
     s.status ≠ .busy ∧ s.par.inCap < s.inLen) ∧
    (let s := { fresh [.start] with inLen := 64 }
     s.status ≠ .busy ∧ s.inLen ≤ s.par.inCap ∧ s.inMem.read 63 = none) := by decide

-- HostWritesOnlyWhileNotBusy: the last index of IN, the first beyond it; the widest IN_LEN and the first too wide.
theorem witness_HostWritesOnlyWhileNotBusy :
    ((fresh [.writeIn 63 0xAA]).host = .writeIn 63 0xAA :: [] ∧ 63 < (fresh []).par.inCap ∧ (fresh []).status ≠ .busy) ∧
    ((fresh [.writeIn 64 0xAA]).host = .writeIn 64 0xAA :: [] ∧ (fresh []).par.inCap ≤ 64) ∧
    ((started .compress 64 [0x41] [.writeIn 0 0xAA]).host = .writeIn 0 0xAA :: [] ∧
      (started .compress 64 [0x41] [.writeIn 0 0xAA]).status = .busy) ∧
    ((fresh [.writeInLen 127]).host = .writeInLen 127 :: [] ∧ 127 < 2 ^ lenW (fresh []).par) ∧
    ((fresh [.writeInLen 128]).host = .writeInLen 128 :: [] ∧ 2 ^ lenW (fresh []).par ≤ 128) ∧
    (started .compress 64 [0x41] [.writeInLen 0]).host = .writeInLen 0 :: [] ∧
    (fresh [.writeOp .decompress]).host = .writeOp .decompress :: [] ∧
    (started .compress 64 [0x41] [.writeOp .compress]).host = .writeOp .compress :: [] := by decide

/-- The same operation after it has finished. -/
def doneState : State :=
  { runState with
    status := .done
    pos := 2
    olen := 4
    outLen := 4
    outMem := Memory.writeBytes [] 0 [0x64, 0x64, 0x64, 0x64] }

-- HostReadsOutputOnlyWhenDone: a state that is DONE with a byte to read, one that is BUSY, both values of OP.
theorem witness_HostReadsOutputOnlyWhenDone :
    Inv doneState ∧ doneState.status = .done ∧ 3 < doneState.outLen ∧ hostReadOut doneState 3 = some 0x64 ∧
    hostReadOut doneState 4 = none ∧ Inv runState ∧ runState.status = .busy ∧ runState.op = .decompress ∧
    (started .compress 64 [0x41] []).op = .compress := by
  refine ⟨?_, rfl, by decide, by decide, by decide, runState_inv, rfl, rfl, rfl⟩
  exact {
    palette := runState_inv.palette
    inLenWidth := runState_inv.inLenWidth
    posCap := by decide
    olenCap := by decide
    outLenCap := by decide
    inForm := runState_inv.inForm
    outForm := by decide
    inBounds := runState_inv.inBounds
    outBounds := by decide
    errFailed := by decide
    outLenHidden := by decide
    outLenDone := fun _ => rfl
    busyCursor := by decide
    busyInput := fun h => by cases h
    outWritten := fun _ => ⟨[0x64, 0x64, 0x64, 0x64], by rfl⟩ }

-- The finishing transition reaches that state.
theorem test_finish : after (Host.Core.run Sys2Proof.core 2 runState) = some doneState := by decide +kernel

-- WaitingHostLeavesTurnToEngine: the three clauses.
theorem witness_WaitingHostLeavesTurnToEngine :
    ((started .decompress 64 [0x84, 0x64] [.wait]).host = .wait :: [] ∧
      (started .decompress 64 [0x84, 0x64] [.wait]).status = .busy) ∧
    ((fresh [.wait]).host = .wait :: [] ∧ (fresh [.wait]).status ≠ .busy) ∧
    (fresh [.yield]).host = .yield :: [] := by decide

-- EngineStepsOnlyWhileBusy, both directions.
theorem witness_EngineStepsOnlyWhileBusy :
    (fresh []).host = [] ∧ (fresh []).status ≠ .busy ∧ runState.host = [] ∧ runState.status = .busy := by decide

-- FinishExposesResult, and the third clause of BusyEngineAlwaysProgresses.
theorem witness_FinishExposesResult :
    (started .compress 0 [] []).host = [] ∧ (started .compress 0 [] []).status = .busy ∧
    (started .compress 0 [] []).pos = (started .compress 0 [] []).inLen := by decide

-- BusyEngineAlwaysProgresses.
theorem witness_BusyEngineAlwaysProgresses : Inv runState ∧ runState.host = [] ∧ runState.status = .busy :=
  ⟨runState_inv, rfl, rfl⟩

-- StatusHasFourWriters: START, reset, the finishing transition, the failure entry.
theorem witness_StatusHasFourWriters :
    (after (step (fresh [.start]))).map State.status = some .busy ∧
    (after (step (started .decompress 64 [0x84] [.reset]))).map State.status = some .idle ∧
    (after (step (started .compress 0 [] []))).map State.status = some .done ∧
    (after (step (started .decompress 64 [0xF1] []))).map State.status = some .failed := by decide +kernel

-- EngineNeverReadsOutput: another content of OUT, with a byte the step appends over and one beyond; the step appends
-- at indexes 0 to 3.
theorem witness_EngineNeverReadsOutput :
    runState.host = [] ∧ ([(0, 0xBB), (5, 0xAA)] : Memory) ≠ runState.outMem ∧
    (after (step runState)).map State.olen = some 4 ∧
    (after (step { runState with outMem := [(0, 0xBB), (5, 0xAA)] })).map (fun t => (t.outMem.read 0, t.outMem.read 5)) =
      some (some 0x64, some 0xAA) := by decide +kernel

-- EngineNeverReadsPastInput: other bytes beyond IN_LEN.
theorem witness_EngineNeverReadsPastInput :
    runState.host = [] ∧ runState.inMem.write 2 0xAA ≠ runState.inMem ∧
    ∀ i, i < runState.inLen → (runState.inMem.write 2 0xAA).read i = runState.inMem.read i := by decide

-- FailureEntryWritesThreeRegisters.
theorem witness_FailureEntryWritesThreeRegisters :
    (started .decompress 64 [0xF1] []).host = [] ∧
    ∃ t, step (started .decompress 64 [0xF1] []) = .next t ∧ t.status = .failed := ⟨rfl, _, rfl, rfl⟩

-- DecodeOfEncodeIsIdentity: test_wf_longest. EncodeOfDecodeIsIdentity: the decode tests.

-- ControlByteMap: the first and last byte of every line of R88.
theorem witness_ControlByteMap :
    ([0x00, 0x3F, 0x40, 0x7F, 0x80, 0xBF, 0xC0, 0xDF, 0xE0, 0xE1, 0xEF, 0xF0, 0xF1, 0xF2, 0xF3, 0xFF] : List Byte).map rowOf =
      [.literal, .literal, .nibble, .nibble, .run, .run, .delta, .delta, .pattern, .delta, .delta, .zeroRun,
        .reservedF1, .commonRun, .delta, .delta] := by decide

/-- A stream of at least one byte is ready to be expanded. -/
theorem ready (cap : Nat) (x : List Byte) (hx : 0 < x.length)
    (hr : (started .decompress cap x []).remaining = some x) : DecoderReady (started .decompress cap x []) x :=
  ⟨rfl, rfl, rfl, hx, hr⟩

-- StepRunsDecodedInstruction, RunRepeatsItsValue.
theorem witness_StepRunsDecodedInstruction :
    DecoderReady runState [0x84, 0x64] ∧ decodeToken [0x84, 0x64] = .ok (.run 4 0x64, []) :=
  ⟨ready _ _ (by decide) (by rfl), rfl⟩

-- ExecFollowsDecStep: an error of the token's own, an expansion that fits, one that does not.
theorem witness_ExecFollowsDecStep :
    expand palEx (.commonRun 1 8) = .error .invalidPaletteIndex ∧ expand palEx .reservedF1 = .error .unknownEscape ∧
    expand palEx (.run 4 0x64) = .ok (2, [0x64, 0x64, 0x64, 0x64]) ∧
    runState.olen + 4 ≤ runState.par.outCap ∧ (started .decompress 3 [] []).par.outCap < 0 + 4 :=
  ⟨rfl, rfl, rfl, by decide, by decide⟩

-- LiteralPassesBytesThrough: control bytes 0x00 and 0x3F, enough bytes and too few.
theorem witness_LiteralPassesBytesThrough :
    DecoderReady (started .decompress 64 [0x00] []) [0x00] ∧
    DecoderReady (started .decompress 64 (0x3F :: List.replicate 63 7) []) (0x3F :: List.replicate 63 7) ∧
    DecoderReady (started .decompress 64 (0x3F :: List.replicate 62 7) []) (0x3F :: List.replicate 62 7) :=
  ⟨ready _ _ (by decide) (by rfl), ready _ _ (by decide) (by decide +kernel), ready _ _ (by decide) (by decide +kernel)⟩

-- NibbleUnpacksHighNibbleFirst: n = 0, n = 63 (32 packed bytes) and one byte too few.
theorem witness_NibbleUnpacksHighNibbleFirst :
    DecoderReady (started .decompress 64 [0x40] []) [0x40] ∧
    DecoderReady (started .decompress 64 (0x7F :: List.replicate 32 7) []) (0x7F :: List.replicate 32 7) ∧
    DecoderReady (started .decompress 64 (0x7F :: List.replicate 31 7) []) (0x7F :: List.replicate 31 7) ∧
    (List.replicate 32 (7 : Byte)).length = ((63 : BitVec 6).toNat + 1) / 2 :=
  ⟨ready _ _ (by decide) (by rfl), ready _ _ (by decide) (by decide +kernel), ready _ _ (by decide) (by decide +kernel),
    by decide⟩

-- RunRepeatsItsValue: the last control byte, with its value byte and without.
theorem witness_RunRepeatsItsValue :
    DecoderReady (started .decompress 64 [0xBF, 0x64] []) [0xBF, 0x64] ∧
    DecoderReady (started .decompress 64 [0x80] []) [0x80] :=
  ⟨ready _ _ (by decide) (by rfl), ready _ _ (by decide) (by rfl)⟩

-- DeltaExpandsProgression: control bytes 0xC0, 0xE1, 0xFF, with both trailing bytes and with one.
theorem witness_DeltaExpandsProgression :
    DecoderReady (started .decompress 64 [0xC0, 0x10, 0x13] []) [0xC0, 0x10, 0x13] ∧
    DecoderReady (started .decompress 64 [0xFF, 0x10, 0xFF] []) [0xFF, 0x10, 0xFF] ∧
    DecoderReady (started .decompress 64 [0xE1, 0x10] []) [0xE1, 0x10] :=
  ⟨ready _ _ (by decide) (by rfl), ready _ _ (by decide) (by rfl), ready _ _ (by decide) (by rfl)⟩

-- ZeroRunAppendsZeros: with the count byte and without.
theorem witness_ZeroRunAppendsZeros :
    DecoderReady (started .decompress 255 [0xF0, 0xFF] []) [0xF0, 0xFF] ∧
    DecoderReady (started .decompress 64 [0xF0] []) [0xF0] ∧
    (started .decompress 255 [0xF0, 0xFF] []).olen + (255 : Byte).toNat ≤ 255 :=
  ⟨ready _ _ (by decide) (by rfl), ready _ _ (by decide) (by rfl), by decide⟩

-- PatternRepeatsItsUnit: both stages of the availability test, and a whole token.
theorem witness_PatternRepeatsItsUnit :
    DecoderReady (started .decompress 64 [0xE0] []) [0xE0] ∧
    DecoderReady (started .decompress 64 [0xE0, 0x2A, 0xAB] []) [0xE0, 0x2A, 0xAB] ∧
    DecoderReady (started .decompress 64 [0xE0, 0x2A, 0xAB, 0xCD] []) [0xE0, 0x2A, 0xAB, 0xCD] :=
  ⟨ready _ _ (by decide) (by rfl), ready _ _ (by decide) (by rfl), ready _ _ (by decide) (by rfl)⟩

-- CommonRunReadsPalette, ReservedEscapeRaisesUnknownEscape, FirstFailingCheckDecides: no info byte; indexes 7 and 8;
-- the reserved escape as the last byte; no token readable; all of them with no room in OUT.
theorem witness_CommonRunReadsPalette :
    DecoderReady (started .decompress 0 [0xF2] []) [0xF2] ∧
    DecoderReady (started .decompress 0 [0xF2, 0x18] []) [0xF2, 0x18] ∧
    DecoderReady (started .decompress 0 [0xF1] []) [0xF1] ∧
    (7 : BitVec 4).toNat < 8 ∧ 8 ≤ (8 : BitVec 4).toNat ∧ 8 ≤ (0x18 : Byte).toNat % 16 ∧
    (∀ i more, decodeToken [0xF2] ≠ .ok (i, more)) :=
  ⟨ready _ _ (by decide) (by rfl), ready _ _ (by decide) (by rfl), ready _ _ (by decide) (by rfl), by decide, by decide,
    by decide, fun _ _ h => by cases h⟩

-- ZeroRunCountsZeros: three zeros; a run past the cap. NibblePackTakesSmallBytes: four values; past the cap.
theorem witness_ZeroRunCountsZeros :
    zeroRunEval [0, 0, 0] 0 = some (.zeroRun 3) ∧ zeroRunEval [0, 0] 0 = none ∧
    zeroRunEval (List.replicate 256 0) 0 = some (.zeroRun 255) ∧
    nibbleEval [9, 1, 8, 2] 0 = some (.nibble [9, 1, 8, 2]) ∧ nibbleEval [9, 1, 8] 0 = none ∧
    nibbleEval (List.replicate 63 9) 0 = some (.nibble (List.replicate 62 9)) := by decide +kernel

-- DeltaSequenceFollowsRecurrence: natural lengths 32 and 50 from 0x01 in steps of 1, and the last byte of an input.
theorem witness_DeltaSequenceFollowsRecurrence :
    deltaEval ((List.range 32).map fun k => BitVec.ofNat 8 (k + 1)) 0 = some (.delta 1 1 31) ∧
    deltaEval ((List.range 50).map fun k => BitVec.ofNat 8 (k + 1)) 0 = some (.delta 1 1 47) ∧
    deltaEval ((List.range 64).map fun k => BitVec.ofNat 8 (k + 1)) 0 = some (.delta 1 1 63) ∧
    deltaEval [0x7E, 0x01, 0x04] 0 = none ∧ deltaEval [0x78, 0x7D, 0x02, 0x07] 0 = some (.delta 0x78 5 4) ∧
    deltaEval [0x10] 0 = none := by decide +kernel

-- Its premises, met by `01 02 03`: the natural length is 3.
theorem witness_DeltaSequence_premises :
    ([1, 2, 3] : List Byte)[0]? = some 1 ∧ ([1, 2, 3] : List Byte)[0 + 1]? = some 2 ∧
    (∀ k u v, k + 1 < 3 → ([1, 2, 3] : List Byte)[0 + k]? = some u → ([1, 2, 3] : List Byte)[0 + k + 1]? = some v →
      (v.toNat : Int) = ((u.toNat : Int) + 1) % 128) ∧
    (∀ u v, ([1, 2, 3] : List Byte)[0 + 3 - 1]? = some u → ([1, 2, 3] : List Byte)[0 + 3]? = some v →
      (v.toNat : Int) ≠ ((u.toNat : Int) + 1) % 128) := by
  refine ⟨rfl, rfl, fun k u v hk hu hv => ?_, fun u v _ hv => by cases hv⟩
  match k, hk with
  | 0, _ => cases hu; cases hv; rfl
  | 1, _ => cases hu; cases hv; rfl

-- PatternMatchMaximisesScore, PatternCountCountsRepeats: an accepted unit, a refused one (p = 2 with two copies).
theorem witness_PatternMatchMaximisesScore :
    patternEval [0xAB, 0xCD, 0xAB, 0xCD, 0xAB, 0xCD] 0 = some (.pattern [0xAB, 0xCD] 3) ∧
    patternEval [0xAB, 0xCD, 0xAB, 0xCD] 0 = none ∧
    patternCount [0xAB, 0xCD, 0xAB, 0xCD, 0xAB] 2 = 2 ∧ patternCount (List.replicate 16 0x64) 1 = 15 := by
  decide +kernel

-- RunLengthChoosesCommonRun: a palette value at 15 and 16, a value outside the palette, a run of 2.
theorem witness_RunLengthChoosesCommonRun :
    runEval palEx (List.replicate 15 0x20) 0 = some (.commonRun 0x20 15) ∧
    runEval palEx (List.replicate 16 0x20) 0 = some (.run 0x20 16) ∧
    runEval palEx [0x64, 0x64, 0x64] 0 = some (.run 0x64 3) ∧ runEval palEx [0x64, 0x64] 0 = none ∧
    (∀ k, k < 3 → ([0x64, 0x64, 0x64] : List Byte)[0 + k]? = some 0x64) ∧
    ([0x64, 0x64, 0x64] : List Byte)[0 + 3]? ≠ some 0x64 := by decide +kernel

-- LiteralStopsAtOpportunity: a stop at a run of three, at a progression, at the cap, at the end.
theorem witness_LiteralStopsAtOpportunity :
    literalEval [0x90, 0xA0, 0xB0, 0xB0, 0xB0] 0 = .literal [0x90, 0xA0] ∧
    literalEval [0x90, 0x10, 0x13, 0x16] 0 = .literal [0x90] ∧
    literalEval ((List.replicate 32 [0x90, 0xB0]).flatten) 0 = .literal (((List.replicate 32 [0x90, 0xB0]).flatten).take 63) ∧
    literalEval [0x90] 0 = .literal [0x90] := by decide +kernel

-- PackedTokenExpandsBack: every token at the largest fields that pass the check, an even and an odd Nibble, and a
-- CommonRun under a palette that holds its value at indexes 2 and 5 (R12: the least one is written). From the layouts.
theorem witness_PackedTokenExpandsBack :
    serialize palEx (.literal (List.replicate 63 7)) = .ok (0x3F :: List.replicate 63 7) ∧
    serialize palEx (.run 0x20 63) = .ok [0xBF, 0x20] ∧
    serialize palEx (.delta 0xFF 239 63) = .ok [0xFF, 0xFF, 0xFF] ∧
    serialize palEx (.nibble [1, 15, 2, 14, 3]) = .ok [0x45, 0x1F, 0x2E, 0x30] ∧
    serialize palEx (.nibble [15, 1]) = .ok [0x42, 0xF1] ∧
    serialize palEx (.zeroRun 255) = .ok [0xF0, 0xFF] ∧
    serialize palEx (.pattern (List.replicate 15 7) 15) = .ok (0xE0 :: 0xFF :: List.replicate 15 7) ∧
    serialize palEx (.commonRun 0x41 15) = .ok [0xF2, 0xF7] ∧
    serialize #v[0xFF, 0x00, 0x20, 0x30, 0x7F, 0x20, 0x0A, 0x41] (.commonRun 0x20 3) = .ok [0xF2, 0x32] := by
  decide +kernel

-- EncStepPacksSelectedToken, ErrorsOfEachOperation: ready to encode; with room and without.
theorem witness_EncStepPacksSelectedToken :
    EncoderReady (started .compress 2 [0x41] []) [0x41] ∧ EncoderReady (started .compress 1 [0x41] []) [0x41] ∧
    serialize palEx (selectAt palEx [0x41]) = .ok [0x01, 0x41] ∧
    ∃ t, step (started .compress 1 [0x41] []) = .next t ∧ t.status = .failed :=
  ⟨⟨rfl, rfl, rfl, by decide, by rfl⟩, ⟨rfl, rfl, rfl, by decide, by rfl⟩, by decide +kernel, _, rfl, rfl⟩

-- SelectedTokenExpandsToItsBytes, SelectedTokenFieldRanges, PatternCountCountsRepeats, LongZeroRunsAreChunked: the
-- smallest and the largest operands.
theorem witness_SelectedTokenExpandsToItsBytes :
    0 < ([0x41] : List Byte).length ∧ (1 ≤ 2 ∧ 2 ≤ ([0xAB, 0xCD] : List Byte).length) ∧
    (3 ≤ 3 ∧ 3 ≤ 255) ∧ (3 ≤ 255 ∧ 255 ≤ 255) := by decide

-- ErrorsOfEachOperation, the decoder's half: a running DECOMPRESS whose step ends in FAILED.
theorem witness_ErrorsOfEachOperation :
    DecoderReady (started .decompress 64 [0xC5, 0x10] []) [0xC5, 0x10] ∧
    ∃ t, step (started .decompress 64 [0xC5, 0x10] []) = .next t ∧ t.status = .failed :=
  ⟨ready _ _ (by decide) (by rfl), _, rfl, rfl⟩

-- DecompressedLengthIsBounded: the bound is reached. LongZeroRunsAreChunked: m = 3 and m = 255 are allowed.
theorem witness_DecompressedLengthIsBounded :
    decompress palEx [0xF0, 0xFF] = .ok (List.replicate 255 0) := by decide +kernel

-- CompressOperationComputesCompress, CompressThenDecompressRestoresInput: witness_Started_compress and the run of it.
theorem witness_CompressThenDecompressRestoresInput :
    compress palEx [0x41] = .ok [0x01, 0x41] ∧
    (∃ (k : Nat) (t : State), Host.Core.run Sys2Proof.core k (started .compress 64 [0x41] []) = .next t ∧
      EndsDone t [0x01, 0x41]) ∧
    Started .decompress [0x01, 0x41] (started .decompress 64 [0x01, 0x41] []) :=
  ⟨by decide +kernel, ⟨2, _, rfl, by unfold EndsDone; decide +kernel⟩,
    started_inv _ _ _ _ (by decide) (by decide) (by decide) (by decide) (by rfl), rfl, rfl, rfl, rfl, rfl, by rfl⟩

-- DecompressOperationComputesDecompress: a result, and an error.
theorem witness_DecompressOperationComputesDecompress :
    decompress palEx [0x84, 0x64] = .ok [0x64, 0x64, 0x64, 0x64] ∧ decompress palEx [0x84] = .error .truncated :=
  ⟨rfl, rfl⟩

-- LengthWidthIsLeast: 64 needs 7 bits, 63 needs 6, 0 needs none.
theorem witness_LengthWidthIsLeast :
    lenW ⟨64, 63, palEx⟩ = 7 ∧ lenW ⟨63, 63, palEx⟩ = 6 ∧ lenW ⟨0, 0, palEx⟩ = 0 := by decide

end Sys2Proof.Tests
end

section
/-! PROOFS. The step invariant, the width of the length registers, the parameters. -/

namespace Sys2Proof

/-! ## The decoder's token is the encoding it was read from (R74, R165) -/

/-- A Pattern is read from its info byte and as many unit bytes as the info byte's high nibble says (R175, R176). -/
theorem decodePattern_eq_ok {t rest : List Byte} {i : Instr} (h : decodePattern t = .ok (i, rest)) :
    i.wellFormed = true ∧ encode i ++ rest = 0xE0 :: t := by
  cases t with
  | nil => cases h
  | cons info t =>
    simp only [decodePattern] at h
    split at h
    · cases h
    · rename_i unit rest' hu
      cases h
      obtain ⟨hl, rfl⟩ := takeBytes_eq_ok.1 hu
      have hlt := (hiNibble info).isLt
      exact ⟨by simp [Instr.wellFormed]; omega, by simp [encode, hl]⟩

/-- A Literal is read from as many bytes as its length field says (R170). -/
theorem decodeLiteral_eq_ok {n : BitVec 6} {t rest : List Byte} {i : Instr} (h : decodeLiteral n t = .ok (i, rest)) :
    i.wellFormed = true ∧ encode i ++ rest = controlByte 0 n :: t := by
  simp only [decodeLiteral] at h
  split at h
  · cases h
  · rename_i bytes rest' hb
    cases h
    obtain ⟨hl, rfl⟩ := takeBytes_eq_ok.1 hb
    have hlt := n.isLt
    exact ⟨by simp [Instr.wellFormed]; omega, by simp [encode, hl]⟩

/-- A Nibble is read from `ceil(n/2)` packed bytes (R171). -/
theorem decodeNibble_eq_ok {n : BitVec 6} {t rest : List Byte} {i : Instr} (h : decodeNibble n t = .ok (i, rest)) :
    i.wellFormed = true ∧ encode i ++ rest = controlByte 1 n :: t := by
  simp only [decodeNibble] at h
  split at h
  · cases h
  · rename_i packed rest' hp
    cases h
    obtain ⟨hl, rfl⟩ := takeBytes_eq_ok.1 hp
    exact ⟨by simp [Instr.wellFormed, hl], rfl⟩

/-- A Delta is read from two bytes; its length is no shadowed one, or its control byte is a sentinel (R93, R173). -/
theorem decodeDelta_eq_ok {n : BitVec 6} {t rest : List Byte} {i : Instr} (hn : shadowedLength n.toNat = false)
    (h : decodeDelta n t = .ok (i, rest)) : i.wellFormed = true ∧ encode i ++ rest = controlByte 3 n :: t := by
  match t with
  | [] => cases h
  | [_] => cases h
  | start :: db :: t => cases h; exact ⟨by simp [Instr.wellFormed, hn], rfl⟩

/-- What the decoder accepts is well formed, and its encoding stands at the head of the stream. -/
theorem decodeToken_eq_ok {bytes rest : List Byte} {i : Instr} (h : decodeToken bytes = .ok (i, rest)) :
    i.wellFormed = true ∧ encode i ++ rest = bytes := by
  cases bytes with
  | nil => cases h
  | cons c t =>
    obtain ⟨hpattern, hzeroRun, hreserved, hcommonRun, hliteral, hnibble, hrun, hdelta⟩ := control_of_row c
    simp only [decodeToken] at h
    cases hrow : rowOf c with
    | pattern => rw [hrow] at h; rw [hpattern hrow]; exact decodePattern_eq_ok h
    | zeroRun =>
      rw [hrow] at h; rw [hzeroRun hrow]
      cases t <;> cases h
      exact ⟨rfl, rfl⟩
    | reservedF1 =>
      rw [hrow] at h; rw [hreserved hrow]
      cases h
      exact ⟨rfl, rfl⟩
    | commonRun =>
      rw [hrow] at h; rw [hcommonRun hrow]
      cases t <;> cases h
      exact ⟨rfl, by simp [encode]⟩
    | literal => rw [hrow] at h; rw [hliteral hrow]; exact decodeLiteral_eq_ok h
    | nibble => rw [hrow] at h; rw [hnibble hrow]; exact decodeNibble_eq_ok h
    | run =>
      rw [hrow] at h; rw [hrun hrow]
      cases t <;> cases h
      exact ⟨rfl, by simp [encode]⟩
    | delta =>
      obtain ⟨hc, hn⟩ := hdelta hrow
      rw [hrow] at h; rw [hc]; exact decodeDelta_eq_ok hn h

end Sys2Proof

namespace Sys2Proof.Machine

/-- The decoder's token ends inside the stream (R164, R165). -/
theorem expand_size_le {pal : Vector Byte 8} {r rest : List Byte} {i : Instr} {size : Nat} {exp : List Byte}
    (hd : decodeToken r = .ok (i, rest)) (he : expand pal i = .ok (size, exp)) : size ≤ r.length := by
  obtain ⟨hw, rfl⟩ := decodeToken_eq_ok hd
  rw [expand_size hw he, List.length_append]
  exact Nat.le_add_right _ _

/-! ## The selected token ends inside the input (R100, R135) -/

theorem cov_zeroRunAt_le {r : List Byte} {t : Token} (h : zeroRunAt r = some t) : cov t ≤ r.length := by
  obtain ⟨rfl, -⟩ := zeroRunAt_eq_some h
  exact (countWhile_spec _ _ r).2.1

theorem cov_nibbleAt_le {r : List Byte} {t : Token} (h : nibbleAt r = some t) : cov t ≤ r.length := by
  obtain ⟨n, -, rfl, -⟩ := nibbleAt_eq_some h
  exact List.length_take_le' n r

theorem cov_runAt_le {pal : Vector Byte 8} {r : List Byte} {t : Token} (h : runAt pal r = some t) :
    cov t ≤ r.length := by
  cases r with
  | nil => cases h
  | cons v r =>
    have hn := (countWhile_spec (· == v) runMax (v :: r)).2.1
    simp only [runAt] at h
    split at h
    · cases h
    · split at h <;> cases h <;> exact hn

/-- The adjusted length of R107 is no longer than the progression found. -/
theorem cov_deltaAt_le {r : List Byte} {t : Token} (h : deltaAt r = some t) : cov t ≤ r.length := by
  match r with
  | [] => cases h
  | [_] => cases h
  | s :: b :: r =>
    simp only [deltaAt] at h
    split at h
    · cases h
    · split at h
      · cases h
      · cases h
        have hn := (deltaCount_spec (byteInt b - byteInt s) (deltaMax - 1) s (b :: r)).2.1
        have ha := (avoidShadowed_spec (1 + deltaCount (byteInt b - byteInt s) (deltaMax - 1) s (b :: r))).1
        simp only [cov, List.length_cons] at hn ⊢
        omega

/-- The first copy of a unit and the further ones the counter finds lie inside the input (R112, R113). -/
theorem patternCount_mul_le {r : List Byte} {p : Nat} (h : p ≤ r.length) : p * patternCount r p ≤ r.length := by
  have hu : (r.take p).length = p := by simp [h]
  have hc := (unitCount_spec (r.take p) (patCountMax - 1) (r.drop p)).2.1
  rw [hu, List.length_drop] at hc
  rw [patternCount, Nat.mul_add, Nat.mul_one, Nat.mul_comm p]
  omega

theorem cov_patternAt_le {r : List Byte} {t : Token} (h : patternAt r = some t) : cov t ≤ r.length := by
  have hl : unitLengths.Pairwise (· < ·) := by decide
  obtain ⟨hbest, -, -⟩ := foldl_tryUnit_spec r unitLengths ⟨0, 0, 0⟩ hl
  simp only [patternAt] at h
  split at h
  · rename_i hpos
    cases h
    rcases hbest with hf | ⟨p, -, hp, hf, -, -⟩
    · rw [hf] at hpos
      exact absurd hpos.1 (Int.lt_irrefl 0)
    · have hu : (r.take p).length = p := by rw [List.length_take]; omega
      rw [hf, cov, hu]
      exact patternCount_mul_le (by omega)
  · cases h

theorem cov_literalAt_le (r : List Byte) : cov (literalAt r) ≤ r.length :=
  List.length_take_le' _ r

theorem cov_selectAt_le (pal : Vector Byte 8) (r : List Byte) : cov (selectAt pal r) ≤ r.length := by
  rcases selectAt_cases pal r with h | ⟨-, h⟩ | ⟨-, -, h⟩ | ⟨-, -, -, h⟩ | ⟨-, -, -, -, h⟩ | ⟨-, -, -, -, -, h⟩
  · exact cov_zeroRunAt_le h
  · exact cov_deltaAt_le h
  · exact cov_nibbleAt_le h
  · exact cov_patternAt_le h
  · exact cov_runAt_le h
  · rw [h]; exact cov_literalAt_le r

/-! ## LEN_W (R7) -/

/-- The search of `leastWidth` finds the least width from `w` on, when its fuel reaches a width that is enough. -/
theorem leastWidth_spec (m fuel w : Nat) (hw : m < 2 ^ (w + fuel)) :
    m < 2 ^ leastWidth m fuel w ∧ ∀ v, w ≤ v → m < 2 ^ v → leastWidth m fuel w ≤ v := by
  induction fuel generalizing w with
  | zero => exact ⟨hw, fun _ hv _ => hv⟩
  | succ fuel ih =>
    rw [leastWidth]
    split
    · rename_i hm
      exact ⟨hm, fun _ hv _ => hv⟩
    · rename_i hm
      obtain ⟨henough, hleast⟩ := ih (w + 1) (by rwa [Nat.add_right_comm])
      refine ⟨henough, fun v hwv hv => hleast v ?_ hv⟩
      exact Nat.lt_of_le_of_ne hwv fun heq => hm (heq ▸ hv)

/-- Settles O60: `m` itself is a width that is enough for `m`, so the search of `lenW` ends at the least one. -/
theorem lengthWidthIsLeast : Obligations.LengthWidthIsLeast := by
  unfold Obligations.LengthWidthIsLeast
  intro p
  have hm : max p.inCap p.outCap < 2 ^ (0 + max p.inCap p.outCap) := by
    rw [Nat.zero_add]
    exact Nat.lt_two_pow_self
  obtain ⟨henough, hleast⟩ := leastWidth_spec _ _ 0 hm
  exact ⟨henough, fun w => hleast w (Nat.zero_le w)⟩

/-! ## What the engine's turn leaves -/

/-- The three next states of an engine's turn (R192): the result exposed, the failure entry, or a token's group
appended within `OUT_CAP` with the cursor still within `IN_LEN`. -/
theorem engineTurn_next {s t : State} (h : engineTurn s = .next t) :
    s.status = .busy ∧
      ((s.pos = s.inLen ∧ t = finish s) ∨ (∃ e, t = raise e s) ∨
        ∃ bytes size, s.pos + size ≤ s.inLen ∧ s.olen + bytes.length ≤ s.par.outCap ∧
          t = advance size (appendOut bytes s)) := by
  have append : ∀ {bytes size}, s.pos + size ≤ s.inLen → appendAndAdvance bytes size s = .next t →
      (∃ e, t = raise e s) ∨ ∃ bytes size, s.pos + size ≤ s.inLen ∧ s.olen + bytes.length ≤ s.par.outCap ∧
        t = advance size (appendOut bytes s) := by
    intro bytes size hsize ht
    rcases appendAndAdvance_cases bytes size s with ⟨hfits, he⟩ | ⟨-, he⟩
    · rw [he] at ht; cases ht; exact .inr ⟨bytes, size, hsize, hfits, rfl⟩
    · rw [he] at ht; cases ht; exact .inl ⟨_, rfl⟩
  rcases engineTurn_cases s with ⟨-, he⟩ | ⟨-, -, he⟩ | ⟨hb, hp, he⟩ | ⟨-, -, -, he⟩ | ⟨hb, hp, r, hr, -, htoken⟩
  · rw [he] at h; cases h
  · rw [he] at h; cases h
  · rw [he] at h; cases h; exact ⟨hb, .inl ⟨hp, rfl⟩⟩
  · rw [he] at h; cases h
  · have hlen := remaining_length hr
    refine ⟨hb, .inr ?_⟩
    rcases htoken with ⟨-, ⟨e, -, he⟩ | ⟨bytes, -, he⟩⟩ | ⟨-, ⟨-, he⟩ | ⟨i, rest, hd, ⟨e, -, he⟩ | ⟨size, exp, hx, he⟩⟩⟩
    · rw [he] at h; cases h; exact .inl ⟨_, rfl⟩
    · have hcov := cov_selectAt_le s.par.palette r
      exact append (by omega) (he ▸ h)
    · rw [he] at h; cases h; exact .inl ⟨_, rfl⟩
    · rw [he] at h; cases h; exact .inl ⟨_, rfl⟩
    · have hsize := expand_size_le hd hx
      exact append (by omega) (he ▸ h)

/-- No transition of the engine changes the parameters (R30). -/
theorem engineTurn_par {s t : State} (h : engineTurn s = .next t) : t.par = s.par := by
  obtain ⟨-, ⟨-, rfl⟩ | ⟨e, rfl⟩ | ⟨bytes, size, -, -, rfl⟩⟩ := engineTurn_next h <;> rfl

/-- Settles O18: the engine keeps the parameters, and every move of the host writes another register. -/
theorem parametersNeverChange : Obligations.ParametersNeverChange := by
  unfold Obligations.ParametersNeverChange
  intro s t h
  rcases step_cases h with ⟨-, ht⟩ | ⟨later, -, ht⟩ | ⟨later, -, -, ht⟩ | ⟨later, -, -, rfl⟩ |
    ⟨later, i, b, -, -, -, rfl⟩ | ⟨later, n, -, -, -, rfl⟩ | ⟨later, o, -, -, rfl⟩ | ⟨later, -, -, rfl⟩ |
    ⟨later, -, -, -, -, rfl⟩ | ⟨later, -, rfl⟩
  · exact engineTurn_par ht
  · have hpar := engineTurn_par ht
    exact hpar
  · exact engineTurn_par ht
  all_goals rfl

/-! ## Each write keeps the invariant -/

/-- The host's list of moves is no part of the invariant. -/
theorem inv_withHost {s : State} (h : Inv s) (later : List HostMove) : Inv { s with host := later } :=
  { h with }

/-- The failure entry (R220): `ERR` is set exactly with FAILED, and no result is visible. -/
theorem inv_raise {s : State} (h : Inv s) (e : CodecError) : Inv (raise e s) :=
  { h with
    outLenCap := Nat.zero_le _
    errFailed := by simp
    outLenHidden := fun _ => rfl
    outLenDone := fun hs => by cases hs
    busyCursor := fun hs => by cases hs
    busyInput := fun hs => by cases hs
    outWritten := fun hs => by rcases hs with hs | hs <;> cases hs }

/-- The finishing transition (R193) exposes the bytes the running operation has written. -/
theorem inv_finish {s : State} (h : Inv s) (hb : s.status = .busy) : Inv (finish s) :=
  { h with
    outLenCap := h.olenCap
    errFailed := by simpa [hb] using h.errFailed
    outLenHidden := fun hs => absurd rfl hs
    outLenDone := fun _ => rfl
    busyCursor := fun hs => by cases hs
    busyInput := fun hs => by cases hs
    outWritten := fun _ => h.outWritten (.inl hb) }

/-- A token's group appended within `OUT_CAP`, with the cursor moved within `IN_LEN` (R133, R163). -/
theorem inv_append {s : State} (h : Inv s) (hb : s.status = .busy) {bytes : List Byte} {size : Nat}
    (hpos : s.pos + size ≤ s.inLen) (hfits : s.olen + bytes.length ≤ s.par.outCap) :
    Inv (advance size (appendOut bytes s)) := by
  obtain ⟨-, hcap⟩ := h.busyCursor hb
  obtain ⟨out, hout⟩ := h.outWritten (.inl hb)
  exact
    { h with
      posCap := hpos.trans hcap
      olenCap := hfits
      outForm := Memory.writeBytes_wf bytes h.outForm s.olen
      outBounds := fun cell hcell => by
        rcases Memory.writeBytes_mem bytes hcell with ⟨-, hlt⟩ | hold
        · exact hlt.trans_le hfits
        · exact h.outBounds cell hold
      outLenDone := fun hs => by simp [hb] at hs
      busyCursor := fun _ => ⟨hpos, hcap⟩
      outWritten := fun _ => ⟨out ++ bytes, Memory.readBytes_writeBytes_append bytes hout⟩ }

/-- `START` (R191) on an input written whole: the registers of the last operation are cleared. -/
theorem inv_startOp {s : State} (h : Inv s) (hcap : s.inLen ≤ s.par.inCap) (hin : ∃ x, s.input = some x) :
    Inv (startOp s) :=
  { h with
    posCap := Nat.zero_le _
    olenCap := Nat.zero_le _
    outLenCap := Nat.zero_le _
    errFailed := by simp
    outLenHidden := fun _ => rfl
    outLenDone := fun hs => by cases hs
    busyCursor := fun _ => ⟨Nat.zero_le _, hcap⟩
    busyInput := fun _ => hin
    outWritten := fun _ => ⟨[], rfl⟩ }

/-- Reset (R240): only the palette's part of the invariant comes from the state before. -/
theorem inv_hostReset {s : State} (h : Inv s) : Inv (hostReset s) where
  palette := h.palette
  inLenWidth := Nat.two_pow_pos _
  posCap := Nat.zero_le _
  olenCap := Nat.zero_le _
  outLenCap := Nat.zero_le _
  inForm := .nil
  outForm := .nil
  inBounds := fun _ hcell => absurd hcell List.not_mem_nil
  outBounds := fun _ hcell => absurd hcell List.not_mem_nil
  errFailed := by simp
  outLenHidden := fun _ => rfl
  outLenDone := fun hs => by cases hs
  busyCursor := fun hs => by cases hs
  busyInput := fun hs => by cases hs
  outWritten := fun hs => by rcases hs with hs | hs <;> cases hs

/-- A host write of `IN[i]` (R32, R246); while nothing runs, no clause asks what `IN` holds. -/
theorem inv_writeIn {s : State} (h : Inv s) (hb : s.status ≠ .busy) {i : Nat} (hi : i < s.par.inCap) (b : Byte) :
    Inv { s with inMem := s.inMem.write i b } :=
  { h with
    inForm := Memory.write_wf h.inForm i b
    inBounds := fun cell hcell => by
      rcases Memory.write_mem hcell with heq | hold
      · rw [heq]; exact hi
      · exact h.inBounds cell hold
    busyInput := fun hs => absurd hs hb }

/-- A host write of `IN_LEN` that fits LEN_W bits (R24, R246). -/
theorem inv_writeInLen {s : State} (h : Inv s) (hb : s.status ≠ .busy) {n : Nat} (hn : n < 2 ^ lenW s.par) :
    Inv { s with inLen := n } :=
  { h with
    inLenWidth := hn
    busyCursor := fun hs => absurd hs hb
    busyInput := fun hs => absurd hs hb }

/-- A host write of `OP`, which no clause of the invariant reads (R24). -/
theorem inv_writeOp {s : State} (h : Inv s) (o : Op) : Inv { s with op := o } :=
  { h with }

/-- Every transition of the engine keeps the invariant (R192). -/
theorem engineTurn_keeps_inv {s t : State} (h : Inv s) (ht : engineTurn s = .next t) : Inv t := by
  obtain ⟨hb, ⟨-, rfl⟩ | ⟨e, rfl⟩ | ⟨bytes, size, hpos, hfits, rfl⟩⟩ := engineTurn_next ht
  · exact inv_finish h hb
  · exact inv_raise h e
  · exact inv_append h hb hpos hfits

/-- Settles O4: an engine's turn keeps the invariant, and so does each move of the host. -/
theorem stepKeepsInvariant : Obligations.StepKeepsInvariant := by
  unfold Obligations.StepKeepsInvariant
  intro s t h hstep
  rcases step_cases hstep with ⟨-, ht⟩ | ⟨later, -, ht⟩ | ⟨later, -, -, ht⟩ | ⟨later, -, -, rfl⟩ |
    ⟨later, i, b, -, hi, hb, rfl⟩ | ⟨later, n, -, hn, hb, rfl⟩ | ⟨later, o, -, -, rfl⟩ | ⟨later, -, -, rfl⟩ |
    ⟨later, -, -, hcap, hin, rfl⟩ | ⟨later, -, rfl⟩
  · exact engineTurn_keeps_inv h ht
  · exact engineTurn_keeps_inv (inv_withHost h later) ht
  · exact engineTurn_keeps_inv h ht
  · exact inv_withHost h later
  · exact inv_writeIn (inv_withHost h later) hb hi b
  · exact inv_writeInLen (inv_withHost h later) hb hn
  · exact inv_writeOp (inv_withHost h later) o
  · exact inv_withHost h later
  · exact inv_startOp (inv_withHost h later) hcap hin
  · exact inv_hostReset (inv_withHost h later)

end Sys2Proof.Machine
end

section
/-! PROOFS. What a step leaves of the output, who writes the registers, and what the engine reads. -/

namespace Sys2Proof.Machine

/-! ## The output of a running operation (R23) -/

/-- One token more is consumed: the stream up to the new cursor is that up to the old one, then the token's encoding (R161). -/
theorem take_add_size {pal : Vector Byte 8} {x rest : List Byte} {pos size : Nat} {i : Instr} {exp : List Byte}
    (hd : decodeToken (x.drop pos) = .ok (i, rest)) (he : expand pal i = .ok (size, exp)) :
    x.take (pos + size) = x.take pos ++ encode i := by
  obtain ⟨hw, hdrop⟩ := decodeToken_eq_ok hd
  rw [List.take_add, ← hdrop, List.take_left' (expand_size hw he).symm]

/-- A consumed token extends the expansions so far by its own (R23, R161). -/
theorem expanded_snoc_take {pal : Vector Byte 8} {x out rest exp : List Byte} {pos size : Nat} {i : Instr}
    (h : Expanded pal (x.take pos) out) (hd : decodeToken (x.drop pos) = .ok (i, rest))
    (he : expand pal i = .ok (size, exp)) : Expanded pal (x.take (pos + size)) (out ++ exp) := by
  rw [take_add_size hd he]
  exact .snoc h (decodeToken_eq_ok hd).1 he

/-- A turn after which the operation still runs has appended one token's group within `OUT_CAP`: the bytes of the
selected token (R133), or the expansion of the token at the cursor (R163). -/
theorem engineTurn_next_busy {s t : State} (h : engineTurn s = .next t) (hbusy : t.status = .busy) :
    s.status = .busy ∧ s.pos < s.inLen ∧ ∃ r bytes size,
      s.remaining = some r ∧ s.olen + bytes.length ≤ s.par.outCap ∧ t = advance size (appendOut bytes s) ∧
      ((s.op = .compress ∧ serialize s.par.palette (selectAt s.par.palette r) = .ok bytes ∧
          size = cov (selectAt s.par.palette r)) ∨
       (s.op = .decompress ∧ ∃ i rest, decodeToken r = .ok (i, rest) ∧
          expand s.par.palette i = .ok (size, bytes))) := by
  have raised : ∀ {e}, engineTurn s ≠ .next (raise e s) := by
    intro e he; rw [he] at h; cases h; cases hbusy
  have append : ∀ {bytes size}, engineTurn s = appendAndAdvance bytes size s →
      s.olen + bytes.length ≤ s.par.outCap ∧ t = advance size (appendOut bytes s) := by
    intro bytes size he
    rcases appendAndAdvance_cases bytes size s with ⟨hfits, ha⟩ | ⟨-, ha⟩
    · rw [he, ha] at h; cases h; exact ⟨hfits, rfl⟩
    · exact absurd (he.trans ha) raised
  rcases engineTurn_cases s with ⟨-, he⟩ | ⟨-, -, he⟩ | ⟨-, -, he⟩ | ⟨-, -, -, he⟩ | ⟨hb, hp, r, hr, -, htoken⟩
  · rw [he] at h; cases h
  · rw [he] at h; cases h
  · rw [he] at h; cases h; cases hbusy
  · rw [he] at h; cases h
  · refine ⟨hb, hp, r, ?_⟩
    rcases htoken with ⟨ho, ⟨e, -, he⟩ | ⟨bytes, hs, he⟩⟩ |
      ⟨ho, ⟨-, he⟩ | ⟨i, rest, hd, ⟨e, -, he⟩ | ⟨size, exp, hx, he⟩⟩⟩
    · exact absurd he raised
    · obtain ⟨hfits, ht⟩ := append he
      exact ⟨bytes, _, hr, hfits, ht, .inl ⟨ho, hs, rfl⟩⟩
    · exact absurd he raised
    · exact absurd he raised
    · obtain ⟨hfits, ht⟩ := append he
      exact ⟨exp, size, hr, hfits, ht, .inr ⟨ho, i, rest, hd, hx⟩⟩

/-- Nothing is claimed of the output while no operation runs. -/
theorem outputPrefix_of_not_busy {s : State} (h : s.status ≠ .busy) : OutputPrefix s := fun hb => absurd hb h

/-- The host's list of moves is no part of R23. -/
theorem outputPrefix_withHost {s : State} (h : OutputPrefix s) (later : List HostMove) :
    OutputPrefix { s with host := later } := h

/-- `START` (R191): no token has been read, and no byte of `OUT` counts. -/
theorem outputPrefix_startOp (s : State) : OutputPrefix (startOp s) := by
  refine fun _ => ⟨Nat.zero_le _, fun x _ => ⟨[], rfl, ?_⟩⟩
  cases hop : (startOp s).op with
  | compress => exact .nil
  | decompress => exact .nil

/-- Every transition of the engine keeps R23: a token's group goes behind the output so far. -/
theorem engineTurn_keeps_outputPrefix {s t : State} (h : OutputPrefix s) (ht : engineTurn s = .next t) :
    OutputPrefix t := by
  intro hbusy
  obtain ⟨hb, hp, r, bytes, size, hr, hfits, rfl, htoken⟩ := engineTurn_next_busy ht hbusy
  refine ⟨hfits, fun x hx => ?_⟩
  have hinput : s.input = some x := hx
  obtain ⟨out, hout, htokens⟩ := (h hb).2 x hinput
  obtain rfl : x.drop s.pos = r := Option.some.inj ((remaining_of_input hinput).symm.trans hr)
  refine ⟨out ++ bytes, Memory.readBytes_writeBytes_append bytes hout, ?_⟩
  rcases htoken with ⟨hop, hs, rfl⟩ | ⟨hop, i, rest, hd, he⟩
  · simp only [hop] at htokens
    simp only [advance_op, appendOut_op, hop]
    exact .snoc htokens (by rwa [input_length hinput]) hs
  · simp only [hop] at htokens
    simp only [advance_op, appendOut_op, hop]
    exact expanded_snoc_take htokens hd he

/-- Settles O5: the engine's turn appends what its token gives, `START` begins with no output, and every other move of
the host leaves the output as it is or finds no operation running. -/
theorem outputIsExactlyTheTokensSoFar : Obligations.OutputIsExactlyTheTokensSoFar := by
  unfold Obligations.OutputIsExactlyTheTokensSoFar
  refine ⟨fun p => outputPrefix_of_not_busy (by simp), fun s t h hstep => ?_⟩
  rcases step_cases hstep with ⟨-, ht⟩ | ⟨later, -, ht⟩ | ⟨later, -, -, ht⟩ | ⟨later, -, -, rfl⟩ |
    ⟨later, i, b, -, -, hb, rfl⟩ | ⟨later, n, -, -, hb, rfl⟩ | ⟨later, o, -, hb, rfl⟩ | ⟨later, -, -, rfl⟩ |
    ⟨later, -, -, -, -, rfl⟩ | ⟨later, -, rfl⟩
  · exact engineTurn_keeps_outputPrefix h ht
  · exact engineTurn_keeps_outputPrefix (outputPrefix_withHost h later) ht
  · exact engineTurn_keeps_outputPrefix h ht
  · exact outputPrefix_withHost h later
  · exact outputPrefix_of_not_busy hb
  · exact outputPrefix_of_not_busy hb
  · exact outputPrefix_of_not_busy hb
  · exact outputPrefix_withHost h later
  · exact outputPrefix_startOp _
  · exact outputPrefix_of_not_busy (by simp)

/-! ## STATUS and OUT (R27, R33) -/

/-- The failure entry is taken only at a token of the input (R192, R220). -/
theorem pos_lt_of_engineTurn_raise {s : State} {e : CodecError} (h : engineTurn s = .next (raise e s)) :
    s.pos < s.inLen := by
  rcases engineTurn_cases s with ⟨-, he⟩ | ⟨-, -, he⟩ | ⟨-, -, he⟩ | ⟨-, -, -, he⟩ | ⟨-, hp, -⟩
  · rw [he] at h; cases h
  · rw [he] at h; cases h
  · rw [he] at h; cases congrArg State.status (Host.Outcome.next.inj h)
  · rw [he] at h; cases h
  · exact hp

/-- The engine changes `STATUS` by the finishing transition and by the failure entry only (R27, R193, R220). -/
theorem engineTurn_changes_status {s t : State} (h : engineTurn s = .next t) (hne : t.status ≠ s.status) :
    (s.status = .busy ∧ s.pos = s.inLen ∧ t.status = .done ∧ t.outLen = s.olen) ∨
    (s.status = .busy ∧ s.pos < s.inLen ∧ t.status = .failed ∧ ∃ e, FailedWith { s with host := t.host } e t) := by
  obtain ⟨hb, ⟨hp, rfl⟩ | ⟨e, rfl⟩ | ⟨bytes, size, -, -, rfl⟩⟩ := engineTurn_next h
  · exact .inl ⟨hb, hp, rfl, rfl⟩
  · exact .inr ⟨hb, pos_lt_of_engineTurn_raise h, rfl, e, failedWith_raise e s⟩
  · exact absurd rfl hne

/-- Settles O14: the two changes of the engine, `START`, and reset; no write or wait of the host changes `STATUS`. -/
theorem statusHasFourWriters : Obligations.StatusHasFourWriters := by
  unfold Obligations.StatusHasFourWriters
  intro s t h hne
  rcases step_cases h with ⟨-, ht⟩ | ⟨later, -, ht⟩ | ⟨later, -, -, ht⟩ | ⟨later, -, -, rfl⟩ |
    ⟨later, i, b, -, -, -, rfl⟩ | ⟨later, n, -, -, -, rfl⟩ | ⟨later, o, -, -, rfl⟩ | ⟨later, -, -, rfl⟩ |
    ⟨later, hhost, hb, -, -, rfl⟩ | ⟨later, hhost, rfl⟩
  · exact .inr (.inr (engineTurn_changes_status ht hne))
  · have hchange := engineTurn_changes_status ht hne
    exact .inr (.inr hchange)
  · exact .inr (.inr (engineTurn_changes_status ht hne))
  · exact absurd rfl hne
  · exact absurd rfl hne
  · exact absurd rfl hne
  · exact absurd rfl hne
  · exact absurd rfl hne
  · exact .inl ⟨later, hhost, hb, rfl⟩
  · exact .inr (.inl ⟨later, hhost, rfl⟩)

/-- Settles O15: only a token's group reaches `OUT`, and it stands at the old `OLEN`. -/
theorem engineOnlyAppendsToOutput : Obligations.EngineOnlyAppendsToOutput := by
  unfold Obligations.EngineOnlyAppendsToOutput
  intro s t hhost h
  rw [step_of_host_nil hhost] at h
  obtain ⟨-, ⟨-, rfl⟩ | ⟨e, rfl⟩ | ⟨bytes, size, -, -, rfl⟩⟩ := engineTurn_next h
  · exact ⟨fun _ => rfl, rfl, rfl, Nat.le_refl _, fun _ _ => rfl⟩
  · exact ⟨fun _ => rfl, rfl, rfl, Nat.le_refl _, fun _ _ => rfl⟩
  · have happ := appended_advance_appendOut bytes size s
    exact ⟨happ.inMem, happ.inLen, happ.op, happ.olen ▸ Nat.le_add_right _ _, happ.olen ▸ happ.outside⟩

/-! ## What the engine reads (R26, R33, R52) -/

/-- `s` and `s'` agree in all that the engine reads: the parameters, `OP`, `STATUS`, `IN_LEN`, `POS`, `OLEN` and
`IN[POS .. IN_LEN-1]`. -/
structure SameView (s s' : State) : Prop where
  par       : s'.par = s.par
  op        : s'.op = s.op
  status    : s'.status = s.status
  inLen     : s'.inLen = s.inLen
  pos       : s'.pos = s.pos
  olen      : s'.olen = s.olen
  remaining : s'.remaining = s.remaining

/-- `o` and `o'` are one and the same transition of the engine (R192), made in `s` and in `s'`. -/
inductive SameTransition (s s' : State) :
    Host.Outcome State Fault Refusal → Host.Outcome State Fault Refusal → Prop where
  | stop (f : Fault) : SameTransition s s' (.fault f) (.fault f)
  | finish : SameTransition s s' (.next (finish s)) (.next (finish s'))
  | fail (e : CodecError) : SameTransition s s' (.next (raise e s)) (.next (raise e s'))
  | append (bytes : List Byte) (size : Nat) :
      SameTransition s s' (.next (advance size (appendOut bytes s))) (.next (advance size (appendOut bytes s')))

/-- The capacity test sees `OLEN` and `OUT_CAP` only (R211). -/
theorem appendAndAdvance_sameTransition {s s' : State} (h : SameView s s') (bytes : List Byte) (size : Nat) :
    SameTransition s s' (appendAndAdvance bytes size s) (appendAndAdvance bytes size s') := by
  rcases appendAndAdvance_cases bytes size s with ⟨hfits, he⟩ | ⟨hfull, he⟩
  · rw [he, appendAndAdvance_fits (by rwa [h.olen, h.par])]
    exact .append bytes size
  · rw [he, appendAndAdvance_full (by rwa [h.olen, h.par])]
    exact .fail _

/-- A token's meaning sees, besides, the palette only (R163). -/
theorem exec_sameTransition {s s' : State} (h : SameView s s') (i : Instr) :
    SameTransition s s' (exec i s) (exec i s') := by
  cases he : expand s.par.palette i with
  | error e =>
    rw [exec_of_expand_error he, exec_of_expand_error (by rwa [h.par])]
    exact .fail e
  | ok v =>
    rw [exec_of_expand_ok he, exec_of_expand_ok (by rwa [h.par])]
    exact appendAndAdvance_sameTransition h _ _

/-- The encoder step (R133). -/
theorem encStep_sameTransition {s s' : State} (h : SameView s s') (r : List Byte) :
    SameTransition s s' (encStep r s) (encStep r s') := by
  unfold encStep
  rw [h.par]
  split
  · exact .fail _
  · exact appendAndAdvance_sameTransition h _ _

/-- The decoder step (R163). -/
theorem decStep_sameTransition {s s' : State} (h : SameView s s') (r : List Byte) :
    SameTransition s s' (decStep r s) (decStep r s') := by
  unfold decStep
  split
  · exact exec_sameTransition h _
  · exact .fail _
  · exact .stop _

theorem tokenStep_sameTransition {s s' : State} (h : SameView s s') :
    SameTransition s s' (tokenStep s) (tokenStep s') := by
  unfold tokenStep
  rw [h.remaining, h.op]
  split
  · exact .stop _
  · split
    · exact encStep_sameTransition h _
    · exact decStep_sameTransition h _

/-- The engine's turn is the same in states that agree in all that it reads (R192). -/
theorem engineTurn_sameTransition {s s' : State} (h : SameView s s') :
    SameTransition s s' (engineTurn s) (engineTurn s') := by
  by_cases hb : s.status = .busy
  · unfold engineTurn
    rw [h.status, hb, h.pos, h.inLen]
    simp only
    split
    · exact tokenStep_sameTransition h
    · split
      · exact .finish
      · exact .stop _
  · rw [engineTurn_quiescent hb, engineTurn_quiescent (by rwa [h.status])]
    exact .stop _

/-- `OUT` is not in the engine's view (R33). -/
theorem sameView_outMem (s : State) (m : Memory) : SameView s { s with outMem := m } :=
  ⟨rfl, rfl, rfl, rfl, rfl, rfl, rfl⟩

/-- What `IN` holds at and beyond `IN_LEN` is not in the engine's view (R26, R52). -/
theorem sameView_inMem {s : State} {m : Memory} (h : ∀ i, i < s.inLen → m.read i = s.inMem.read i) :
    SameView s { s with inMem := m } where
  par := rfl
  op := rfl
  status := rfl
  inLen := rfl
  pos := rfl
  olen := rfl
  remaining := by
    have hread : m.readBytes s.pos (s.inLen - s.pos) = s.inMem.readBytes s.pos (s.inLen - s.pos) :=
      Memory.readBytes_congr fun c _ _ => h c (by omega)
    simp only [State.remaining, hread]

/-- Settles O16: with any other content of `OUT` the same transition is made, and a group reads back the same. -/
theorem engineNeverReadsOutput : Obligations.EngineNeverReadsOutput := by
  unfold Obligations.EngineNeverReadsOutput
  intro s m hhost
  have hsame := engineTurn_sameTransition (sameView_outMem s m)
  rw [step_of_host_nil hhost, step_of_host_nil (s := { s with outMem := m }) hhost]
  generalize engineTurn s = o, engineTurn { s with outMem := m } = o' at hsame
  cases hsame with
  | stop f => rfl
  | finish => exact ⟨rfl, fun a h1 h2 => absurd h2 (Nat.not_lt.2 h1), fun _ _ => rfl⟩
  | fail e => exact ⟨rfl, fun a h1 h2 => absurd h2 (Nat.not_lt.2 h1), fun _ _ => rfl⟩
  | append bytes size =>
    exact ⟨rfl, fun a h1 h2 => Memory.read_writeBytes_agree m s.outMem h1 h2,
      Memory.read_writeBytes_outside bytes m s.olen⟩

/-- Settles O17: with other bytes at and beyond `IN_LEN` the same transition is made, and no transition writes `IN`. -/
theorem engineNeverReadsPastInput : Obligations.EngineNeverReadsPastInput := by
  unfold Obligations.EngineNeverReadsPastInput
  intro s m hhost hread
  have hsame := engineTurn_sameTransition (sameView_inMem hread)
  rw [step_of_host_nil hhost, step_of_host_nil (s := { s with inMem := m }) hhost]
  generalize engineTurn s = o, engineTurn { s with inMem := m } = o' at hsame
  cases hsame with
  | stop f => rfl
  | finish => rfl
  | fail e => rfl
  | append bytes size => rfl

/-! ## The host's writes (R24, R32, R246) -/

theorem whenNotBusy_busy {s : State} (h : s.status = .busy) (t : State) :
    whenNotBusy s t = .refused .hostWriteWhileBusy := by
  simp [whenNotBusy, State.isBusy, h]

theorem whenNotBusy_not_busy {s : State} (h : s.status ≠ .busy) (t : State) : whenNotBusy s t = .next t := by
  simp [whenNotBusy, State.isBusy, h]

/-- A write of a byte that `IN` has is subject to `STATUS` only. -/
theorem step_writeIn {s : State} {later : List HostMove} {i : Nat} {b : Byte} (hhost : s.host = .writeIn i b :: later)
    (hi : i < s.par.inCap) :
    step s = whenNotBusy { s with host := later } { s with host := later, inMem := s.inMem.write i b } := by
  simp [step, hhost, hostTurn, hostWriteIn, hi]

theorem step_writeIn_past {s : State} {later : List HostMove} {i : Nat} {b : Byte}
    (hhost : s.host = .writeIn i b :: later) (hi : s.par.inCap ≤ i) : step s = .refused .inIndexPastCapacity := by
  simp [step, hhost, hostTurn, hostWriteIn, Nat.not_lt.2 hi]

/-- A value that fits LEN_W bits is subject to `STATUS` only. -/
theorem step_writeInLen {s : State} {later : List HostMove} {n : Nat} (hhost : s.host = .writeInLen n :: later)
    (hn : n < 2 ^ lenW s.par) :
    step s = whenNotBusy { s with host := later } { s with host := later, inLen := n } := by
  simp [step, hhost, hostTurn, hostWriteInLen, hn]

theorem step_writeInLen_wide {s : State} {later : List HostMove} {n : Nat} (hhost : s.host = .writeInLen n :: later)
    (hn : 2 ^ lenW s.par ≤ n) : step s = .refused .inLenTooWide := by
  simp [step, hhost, hostTurn, hostWriteInLen, Nat.not_lt.2 hn]

theorem step_writeOp {s : State} {later : List HostMove} {o : Op} (hhost : s.host = .writeOp o :: later) :
    step s = whenNotBusy { s with host := later } { s with host := later, op := o } := by
  simp [step, hhost, hostTurn, hostWriteOp]

/-- Settles O7: a write inside the block's ranges is refused while BUSY and else lands in its own place; one outside
them is refused. -/
theorem hostWritesOnlyWhileNotBusy : Obligations.HostWritesOnlyWhileNotBusy := by
  unfold Obligations.HostWritesOnlyWhileNotBusy
  intro s later
  refine ⟨fun i b hhost hi => ?_, fun i b hhost hi => step_writeIn_past hhost hi,
    fun n hhost hn => step_writeInLen_wide hhost hn, fun n hhost hn => ?_, fun o hhost => ?_⟩
  · rw [step_writeIn hhost hi]
    refine ⟨fun hb => whenNotBusy_busy hb _, fun hb => ⟨_, whenNotBusy_not_busy hb _, rfl, ?_, fun a ha => ?_⟩⟩
    · exact Memory.read_write_self s.inMem i b
    · exact Memory.read_write_other s.inMem b ha
  · rw [step_writeInLen hhost hn]
    exact ⟨fun hb => whenNotBusy_busy hb _, fun hb => whenNotBusy_not_busy hb _⟩
  · rw [step_writeOp hhost]
    exact ⟨fun hb => whenNotBusy_busy hb _, fun hb => whenNotBusy_not_busy hb _⟩

/-! ## Codes, and where the engine rests -/

/-- Settles O10: each register's code is the value the spec's table lists for its name (R24, R210). -/
theorem registerCodes : Obligations.RegisterCodes := by
  unfold Obligations.RegisterCodes
  exact ⟨⟨rfl, rfl⟩, ⟨rfl, rfl, rfl, rfl⟩, rfl, rfl, rfl, rfl, rfl, rfl⟩

/-- While BUSY the engine is not at rest: its turn is a transition, or it stops at an input it cannot read (R192). -/
theorem engineTurn_ne_quiescent {s : State} (hb : s.status = .busy) : engineTurn s ≠ .fault .engineQuiescent := by
  have append : ∀ bytes size, appendAndAdvance bytes size s ≠ .fault .engineQuiescent := by
    intro bytes size h
    rcases appendAndAdvance_cases bytes size s with ⟨-, he⟩ | ⟨-, he⟩
    · rw [he] at h; cases h
    · rw [he] at h; cases h
  intro h
  rcases engineTurn_cases s with ⟨hne, -⟩ | ⟨-, -, he⟩ | ⟨-, -, he⟩ | ⟨-, -, -, he⟩ | ⟨-, -, r, -, -, htoken⟩
  · exact hne hb
  · rw [he] at h; cases h
  · rw [he] at h; cases h
  · rw [he] at h; cases h
  · rcases htoken with ⟨-, ⟨e, -, he⟩ | ⟨bytes, -, he⟩⟩ |
      ⟨-, ⟨-, he⟩ | ⟨i, rest, -, ⟨e, -, he⟩ | ⟨size, exp, -, he⟩⟩⟩
    · rw [he] at h; cases h
    · exact append _ _ (he ▸ h)
    · rw [he] at h; cases h
    · rw [he] at h; cases h
    · exact append _ _ (he ▸ h)

/-- Settles O11: with no host move a step is the engine's turn, which rests exactly when not BUSY. -/
theorem engineStepsOnlyWhileBusy : Obligations.EngineStepsOnlyWhileBusy := by
  unfold Obligations.EngineStepsOnlyWhileBusy
  intro s hhost
  rw [step_of_host_nil hhost]
  exact ⟨fun h hb => engineTurn_ne_quiescent hb h, engineTurn_quiescent⟩

end Sys2Proof.Machine
end

section
/-! PROOFS. The encodings: the control-byte map, and decoding and encoding as inverses of each other. -/

namespace Sys2Proof

/-! ## Decoding what the encoder wrote (R74) -/

theorem decodeToken_controlByte_literal (n : BitVec 6) (t : List Byte) :
    decodeToken (controlByte 0 n :: t) = decodeLiteral n t := by
  simp [decodeToken, rowOf_controlByte]

theorem decodeToken_controlByte_nibble (n : BitVec 6) (t : List Byte) :
    decodeToken (controlByte 1 n :: t) = decodeNibble n t := by
  simp [decodeToken, rowOf_controlByte]

theorem decodeToken_controlByte_run (n : BitVec 6) (t : List Byte) :
    decodeToken (controlByte 2 n :: t) = decodeRun n t := by
  simp [decodeToken, rowOf_controlByte]

/-- A Delta's control byte is none of the sentinels (R93). -/
theorem decodeToken_controlByte_delta {n : BitVec 6} (hn : shadowedLength n.toNat = false) (t : List Byte) :
    decodeToken (controlByte 3 n :: t) = decodeDelta n t := by
  have hrow : rowOf (controlByte 3 n) = .delta := rowOf_controlByte fun _ => hn
  simp only [decodeToken, hrow, lengthField_controlByte]

/-- The info byte's high nibble holds the unit's length (R86, R175). -/
theorem decodePattern_append (count : BitVec 4) {unit : List Byte} (hlen : unit.length ≤ 15) (rest : List Byte) :
    decodePattern (joinNibbles (BitVec.ofNat 4 unit.length) count :: (unit ++ rest)) =
      .ok (.pattern count unit, rest) := by
  have hfield : (BitVec.ofNat 4 unit.length).toNat = unit.length := by
    rw [BitVec.toNat_ofNat]; omega
  simp [decodePattern, hfield, takeBytes_append]

/-- The length field holds the number of raw bytes (R170). -/
theorem decodeLiteral_append {bytes : List Byte} (hlen : bytes.length ≤ 63) (rest : List Byte) :
    decodeLiteral (BitVec.ofNat 6 bytes.length) (bytes ++ rest) = .ok (.literal bytes, rest) := by
  have hfield : (BitVec.ofNat 6 bytes.length).toNat = bytes.length := by
    rw [BitVec.toNat_ofNat]; omega
  simp [decodeLiteral, hfield, takeBytes_append]

theorem decodeNibble_append {n : BitVec 6} {packed : List Byte} (hlen : packed.length = (n.toNat + 1) / 2)
    (rest : List Byte) : decodeNibble n (packed ++ rest) = .ok (.nibble n packed, rest) := by
  simp [decodeNibble, ← hlen, takeBytes_append]

/-- Settles O20: the control byte selects the token's own row, whose decoder takes back exactly the trailing bytes. -/
theorem decodeOfEncodeIsIdentity : Obligations.DecodeOfEncodeIsIdentity := by
  unfold Obligations.DecodeOfEncodeIsIdentity
  intro i rest hw
  cases i with
  | pattern count unit => exact decodePattern_append count (of_decide_eq_true hw) rest
  | zeroRun n => rfl
  | reservedF1 => rfl
  | commonRun n k =>
    have hinfo : decodeCommonRun (joinNibbles n k :: rest) = .ok (.commonRun n k, rest) := by simp [decodeCommonRun]
    exact hinfo
  | literal bytes =>
    exact (decodeToken_controlByte_literal _ _).trans (decodeLiteral_append (of_decide_eq_true hw) rest)
  | nibble n packed =>
    exact (decodeToken_controlByte_nibble _ _).trans (decodeNibble_append (eq_of_beq hw) rest)
  | run n v => exact decodeToken_controlByte_run n (v :: rest)
  | delta n start db =>
    have hn : shadowedLength n.toNat = false := by simpa [Instr.wellFormed] using hw
    exact decodeToken_controlByte_delta hn (start :: db :: rest)

/-- Settles O21: each row's decoder answers the token whose encoding it has read. -/
theorem encodeOfDecodeIsIdentity : Obligations.EncodeOfDecodeIsIdentity := by
  unfold Obligations.EncodeOfDecodeIsIdentity
  intro bytes rest i h
  exact decodeToken_eq_ok h

/-! ## The control-byte map (R88) -/

/-- The mode weighs 64 in a control byte (R70). -/
theorem toNat_controlByte (m : BitVec 2) (n : BitVec 6) : (controlByte m n).toNat = 64 * m.toNat + n.toNat := by
  rw [controlByte, BitVec.toNat_append, ← Nat.shiftLeft_add_eq_or_of_lt n.isLt, Nat.shiftLeft_eq, Nat.mul_comm]

/-- The 64 control bytes of a mode, in order, carry the lengths 0 to 63. -/
theorem fields_of_range {c : Byte} (m : BitVec 2) (hlo : 64 * m.toNat ≤ c.toNat)
    (hhi : c.toNat ≤ 64 * m.toNat + 63) : modeField c = m ∧ (lengthField c).toNat = c.toNat - 64 * m.toNat := by
  have hc : c.toNat = 64 * (modeField c).toNat + (lengthField c).toNat := by
    rw [← toNat_controlByte, controlByte_fields]
  have hn := (lengthField c).isLt
  exact ⟨BitVec.eq_of_toNat_eq (by omega), by omega⟩

/-- The four sentinels (R71). -/
def sentinels : List Byte := [0xE0, 0xF0, 0xF1, 0xF2]

theorem mem_sentinels {c : Byte} :
    c ∈ sentinels ↔ c.toNat = 0xE0 ∨ c.toNat = 0xF0 ∨ c.toNat = 0xF1 ∨ c.toNat = 0xF2 := by
  simp [sentinels, ← BitVec.toNat_inj]

/-- The row of a mode (R72). -/
def modeRow (m : BitVec 2) : Row :=
  if m = 0 then .literal else if m = 1 then .nibble else if m = 2 then .run else .delta

theorem modeRow_beq (m m' : BitVec 2) : (modeRow m == modeRow m') = (m' == m) := by
  revert m m'; decide

theorem rowOf_of_not_sentinel {c : Byte} (h : c ∉ sentinels) : rowOf c = modeRow (modeField c) := by
  simp only [sentinels, List.mem_cons, List.not_mem_nil, or_false, not_or] at h
  obtain ⟨h1, h2, h3, h4⟩ := h
  rw [rowOf, if_neg h1, if_neg h2, if_neg h3, if_neg h4, modeRow]

/-- The control bytes of a mode, but for the sentinels, are its row's (R88). -/
theorem row_of_range {c : Byte} (m : BitVec 2) (hlo : 64 * m.toNat ≤ c.toNat) (hhi : c.toNat ≤ 64 * m.toNat + 63)
    (h : ¬ (c.toNat = 0xE0 ∨ c.toNat = 0xF0 ∨ c.toNat = 0xF1 ∨ c.toNat = 0xF2)) :
    rowOf c = modeRow m ∧ (lengthField c).toNat = c.toNat - 64 * m.toNat := by
  obtain ⟨hm, hn⟩ := fields_of_range m hlo hhi
  exact ⟨hm ▸ rowOf_of_not_sentinel (mem_sentinels.not.2 h), hn⟩

/-- Settles O22: four ranges of 64 bytes, one a mode, with the four sentinels cut out of the last. -/
theorem controlByteMap : Obligations.ControlByteMap := by
  unfold Obligations.ControlByteMap
  intro c
  obtain ⟨hpattern, hzeroRun, hreserved, hcommonRun⟩ := rowOf_sentinels
  have sentinel : ∀ {b : Byte} {row : Row}, rowOf b = row → c.toNat = b.toNat → rowOf c = row :=
    fun hrow h => BitVec.eq_of_toNat_eq h ▸ hrow
  have delta : 0xC0 ≤ c.toNat → ¬ (c.toNat = 0xE0 ∨ c.toNat = 0xF0 ∨ c.toNat = 0xF1 ∨ c.toNat = 0xF2) →
      rowOf c = .delta ∧ (lengthField c).toNat = c.toNat - 0xC0 :=
    fun hlo => row_of_range 3 hlo (Nat.le_of_lt_succ c.isLt)
  exact ⟨fun hhi => row_of_range 0 (Nat.zero_le _) hhi (by omega), fun hlo hhi => row_of_range 1 hlo hhi (by omega),
    fun hlo hhi => row_of_range 2 hlo hhi (by omega), fun hlo _ => delta hlo (by omega), sentinel hpattern,
    fun hlo _ => delta (by omega) (by omega), sentinel hzeroRun, sentinel hreserved, sentinel hcommonRun,
    fun hlo => delta (by omega) (by omega)⟩

/-! ## The opcode table (R88) -/

/-- A row whose mask is 0xFF accepts its own byte only. -/
theorem accepts_fullMask (row : Row) (b c : Byte) (priority : Nat) :
    OpcodeRow.accepts ⟨row, b, 0xFF, priority, []⟩ c = (c == b) := by
  have hmask : c &&& 0xFF = c := BitVec.and_allOnes
  simp only [OpcodeRow.accepts, hmask, List.contains_nil, Bool.not_false, Bool.and_true]

/-- The mask 0xC0 keeps the mode. -/
theorem and_modeMask (c : Byte) : c &&& 0xC0 = controlByte (modeField c) 0 := by
  revert c; decide +kernel

/-- A row whose mask is 0xC0 accepts the bytes of its mode that it does not exclude. -/
theorem accepts_modeMask (row : Row) (m : BitVec 2) (c : Byte) (priority : Nat) (excludes : List Byte) :
    OpcodeRow.accepts ⟨row, controlByte m 0, 0xC0, priority, excludes⟩ c =
      (modeField c == m && !excludes.contains c) := by
  have hmode : (controlByte (modeField c) 0 == controlByte m 0) = (modeField c == m) := by
    rw [Bool.eq_iff_iff, beq_iff_eq, beq_iff_eq]
    exact ⟨fun h => by simpa using congrArg modeField h, fun h => by rw [h]⟩
  rw [OpcodeRow.accepts, and_modeMask, hmode]

theorem accepts_eq_of_sentinel : ∀ c ∈ sentinels, ∀ r ∈ opcodeTable, r.accepts c = (r.row == rowOf c) := by
  decide

/-- Outside the sentinels only the four mode rows are left, and they compare the mode. -/
theorem accepts_eq_of_not_sentinel {c : Byte} (hc : c ∉ sentinels) {r : OpcodeRow} (hr : r ∈ opcodeTable) :
    r.accepts c = (r.row == rowOf c) := by
  have sentinelRow : ∀ row b, b ∈ sentinels → (∀ m, (row == modeRow m) = false) →
      OpcodeRow.accepts ⟨row, b, 0xFF, 1, []⟩ c = (row == rowOf c) := by
    intro row b hb hrow
    rw [accepts_fullMask, rowOf_of_not_sentinel hc, hrow, beq_eq_false_iff_ne]
    exact fun heq => hc (heq ▸ hb)
  have modeRowAccepts : ∀ m excludes, c ∉ excludes →
      OpcodeRow.accepts ⟨modeRow m, controlByte m 0, 0xC0, 2, excludes⟩ c = (modeRow m == rowOf c) := by
    intro m excludes hex
    rw [accepts_modeMask, rowOf_of_not_sentinel hc, modeRow_beq]
    simp [hex]
  simp only [opcodeTable, List.mem_cons, List.not_mem_nil, or_false] at hr
  rcases hr with rfl | rfl | rfl | rfl | rfl | rfl | rfl | rfl
  · exact sentinelRow .pattern 0xE0 (by decide) (by decide)
  · exact sentinelRow .zeroRun 0xF0 (by decide) (by decide)
  · exact sentinelRow .reservedF1 0xF1 (by decide) (by decide)
  · exact sentinelRow .commonRun 0xF2 (by decide) (by decide)
  · exact modeRowAccepts 0 [] List.not_mem_nil
  · exact modeRowAccepts 1 [] List.not_mem_nil
  · exact modeRowAccepts 2 [] List.not_mem_nil
  · exact modeRowAccepts 3 sentinels hc

/-- A row of the table accepts exactly the control bytes that the decoder gives to it. -/
theorem accepts_eq_rowOf {r : OpcodeRow} (hr : r ∈ opcodeTable) (c : Byte) : r.accepts c = (r.row == rowOf c) := by
  by_cases hc : c ∈ sentinels
  · exact accepts_eq_of_sentinel c hc r hr
  · exact accepts_eq_of_not_sentinel hc hr

/-- Settles O23: the rows that accept a byte are those with the decoder's row, and each row stands once in the table. -/
theorem everyControlByteHasExactlyOneRow : Obligations.EveryControlByteHasExactlyOneRow := by
  unfold Obligations.EveryControlByteHasExactlyOneRow
  intro c
  rw [List.filter_congr fun r hr => accepts_eq_rowOf hr c]
  cases rowOf c <;> rfl

end Sys2Proof
end

section
/-! PROOFS. The evaluators: what each one proposes and when it declines, and that every proposal stands for the bytes
it covers. -/

namespace Sys2Proof.Machine

/-! ## The counting loop (R102, R110, R117) -/

/-- The counting loop answers `n` exactly when `n` has its defining properties. -/
theorem countWhile_eq_iff {p : Byte → Bool} {cap n : Nat} {r : List Byte} :
    countWhile p cap r = n ↔ n ≤ cap ∧ n ≤ r.length ∧ (∀ k b, k < n → r[k]? = some b → p b = true) ∧
      (n < cap → ∀ b, r[n]? = some b → p b = false) := by
  constructor
  · rintro rfl
    exact countWhile_spec p cap r
  · rintro ⟨hcap, hlen, htest, hstop⟩
    exact countWhile_unique p hcap hlen htest hstop

/-- Counting the bytes equal to `v`: the end of the input needs no mention, as no byte stands there. -/
theorem countWhile_beq_eq_iff {v : Byte} {cap n : Nat} {r : List Byte} :
    countWhile (· == v) cap r = n ↔
      n ≤ cap ∧ (∀ k, k < n → r[k]? = some v) ∧ (n < cap → r[n]? ≠ some v) := by
  rw [countWhile_eq_iff]
  constructor
  · rintro ⟨hcap, hlen, heq, hstop⟩
    refine ⟨hcap, fun k hk => ?_, fun hlt hn => by simpa using hstop hlt v hn⟩
    have hb : r[k]? = some (r[k]'(by omega)) := List.getElem?_eq_getElem _
    rw [hb, eq_of_beq (heq k _ hk hb)]
  · rintro ⟨hcap, heq, hstop⟩
    have hlen : n ≤ r.length := by
      by_contra h
      simpa using heq r.length (by omega)
    refine ⟨hcap, hlen, fun k b hk hb => ?_, fun hlt b hb => ?_⟩
    · rw [heq k hk] at hb
      cases hb
      exact beq_self_eq_true v
    · exact beq_eq_false_iff_ne.2 fun h => hstop hlt (h ▸ hb)

/-! ## ZeroRun (R102) -/

theorem zeroRunAt_eq_some_iff {r : List Byte} {n : Nat} :
    zeroRunAt r = some (.zeroRun n) ↔ 3 ≤ n ∧ countWhile (· == 0) zeroRunMax r = n := by
  constructor
  · intro h
    obtain ⟨ht, hmin⟩ := zeroRunAt_eq_some h
    cases ht
    exact ⟨hmin, rfl⟩
  · rintro ⟨hmin, rfl⟩
    exact if_pos hmin

/-- Settles O36: the counting loop with the test for zero. -/
theorem zeroRunCountsZeros : Obligations.ZeroRunCountsZeros := by
  unfold Obligations.ZeroRunCountsZeros
  intro x pos n _
  constructor
  · rw [zeroRunEval, zeroRunAt_eq_some_iff, countWhile_beq_eq_iff]
    simp only [List.getElem?_drop]
  · intro h
    obtain ⟨t, ht⟩ := Option.ne_none_iff_exists'.1 h
    exact ⟨_, ht.trans (congrArg some (zeroRunAt_eq_some ht).1)⟩

/-! ## NibblePack (R110) -/

/-- The bytes proposed are the longest initial stretch of bytes below 16, given by its defining properties. -/
theorem nibbleAt_eq_some_iff {r values : List Byte} :
    nibbleAt r = some (.nibble values) ↔ 4 ≤ values.length ∧ values.length ≤ nibMax ∧ values <+: r ∧
      (∀ v ∈ values, v.toNat < 16) ∧ (values.length < nibMax → ∀ v, r[values.length]? = some v → 16 ≤ v.toNat) := by
  constructor
  · intro h
    obtain ⟨n, hn, ht, hmin⟩ := nibbleAt_eq_some h
    cases ht
    obtain ⟨hcap, hlen, hsmall, hstop⟩ := countWhile_eq_iff.1 hn.symm
    have htake : (r.take n).length = n := List.length_take_of_le hlen
    rw [htake]
    refine ⟨hmin, hcap, List.take_prefix n r, fun v hv => ?_, fun hlt v hv => ?_⟩
    · obtain ⟨k, hk, hkv⟩ := List.mem_take_iff_getElem.1 hv
      have := hsmall k v (by omega) (by rw [← hkv]; exact List.getElem?_eq_getElem _)
      simpa using this
    · simpa using hstop hlt v hv
  · rintro ⟨hmin, hcap, hpre, hsmall, hstop⟩
    have hn : countWhile (fun b => decide (b.toNat < 16)) nibMax r = values.length := by
      refine countWhile_eq_iff.2 ⟨hcap, hpre.length_le, fun k b hk hb => ?_, fun hlt b hb => ?_⟩
      · rw [List.prefix_iff_getElem?.1 hpre k hk] at hb
        cases hb
        exact decide_eq_true (hsmall _ (List.getElem_mem hk))
      · have := hstop hlt b hb
        exact decide_eq_false (by omega)
    simp only [nibbleAt, hn]
    rw [if_pos hmin, ← List.prefix_iff_eq_take.1 hpre]

/-- Settles O38: the values are the bytes that begin at the position, and no longer stretch will do. -/
theorem nibblePackTakesSmallBytes : Obligations.NibblePackTakesSmallBytes := by
  unfold Obligations.NibblePackTakesSmallBytes
  intro x pos values _
  constructor
  · have hvalues : (∀ k v, values[k]? = some v → x[pos + k]? = some v ∧ v.toNat < 16) ↔
        values <+: x.drop pos ∧ ∀ v ∈ values, v.toNat < 16 := by
      simp only [List.prefix_iff_getElem?, List.getElem?_drop]
      constructor
      · refine fun h => ⟨fun k hk => (h k _ (List.getElem?_eq_getElem hk)).1, fun v hv => ?_⟩
        obtain ⟨k, hk⟩ := List.mem_iff_getElem?.1 hv
        exact (h k v hk).2
      · rintro ⟨hpre, hsmall⟩ k v hv
        obtain ⟨hk, rfl⟩ := List.getElem?_eq_some_iff.1 hv
        exact ⟨hpre k hk, hsmall _ (List.getElem_mem hk)⟩
    rw [nibbleEval, nibbleAt_eq_some_iff, hvalues, List.getElem?_drop, and_assoc]
  · intro h
    obtain ⟨t, ht⟩ := Option.ne_none_iff_exists'.1 h
    obtain ⟨n, -, rfl, -⟩ := nibbleAt_eq_some ht
    exact ⟨_, ht⟩

/-! ## RunLength (R117, R118) -/

/-- The token of a run, from the value and the length of the run. -/
theorem runAt_of_run {pal : Vector Byte 8} {r : List Byte} {v : Byte} {n : Nat} (hv : r[0]? = some v)
    (hn : countWhile (· == v) runMax r = n) :
    runAt pal r = if n < 3 then none else if v ∈ pal.toList ∧ n ≤ 15 then some (.commonRun v n)
      else some (.run v n) := by
  cases r with
  | nil => cases hv
  | cons a t =>
    cases hv
    simp only [runAt, hn, Bool.and_eq_true, decide_eq_true_eq, inPalette_iff]

/-- Settles O41: the premises say that `n` is the answer of the counting loop. -/
theorem runLengthChoosesCommonRun : Obligations.RunLengthChoosesCommonRun := by
  unfold Obligations.RunLengthChoosesCommonRun
  intro pal x pos n v hv hcap heq hstop
  refine runAt_of_run (by simpa using hv) (countWhile_beq_eq_iff.2 ⟨hcap, ?_, ?_⟩)
  · simpa only [List.getElem?_drop] using heq
  · simpa only [List.getElem?_drop] using hstop

/-! ## DeltaSequence (R104 to R107) -/

/-- What DeltaSequence answers where two bytes are left: the conditions of R105 and R106, then the length of R107. -/
theorem deltaAt_cons_cons (s b : Byte) (t : List Byte) (d : Int) (hd : d = byteInt b - byteInt s) :
    deltaAt (s :: b :: t) =
      if -15 ≤ d ∧ d ≤ 15 ∧ d ≠ 0 ∧ 3 ≤ 1 + deltaCount d 62 s (b :: t)
      then some (.delta s d (avoidShadowed (1 + deltaCount d 62 s (b :: t)))) else none := by
  subst hd
  simp only [deltaAt, deltaAbsMax, deltaMin, deltaMax, Nat.reduceSub]
  split
  · rw [if_neg (by omega)]
  · split
    · rw [if_neg (by omega)]
    · rw [if_pos (by omega)]

theorem deltaAt_of_length_le_one {r : List Byte} (h : r.length ≤ 1) : deltaAt r = none := by
  match r with
  | [] => rfl
  | [_] => rfl
  | _ :: _ :: _ => simp at h

/-- The natural length of a progression (R104) is one more than the answer of the extension loop. -/
theorem deltaCount_of_natural {d : Int} {natural : Nat} {s : Byte} {r : List Byte} (hmin : 1 ≤ natural)
    (hmax : natural ≤ 63) (hlen : natural ≤ (s :: r).length)
    (hrec : ∀ k u v, k + 1 < natural → (s :: r)[k]? = some u → (s :: r)[k + 1]? = some v →
      (v.toNat : Int) = ((u.toNat : Int) + d) % 128)
    (hstop : natural < 63 → ∀ u v, (s :: r)[natural - 1]? = some u → (s :: r)[natural]? = some v →
      (v.toNat : Int) ≠ ((u.toNat : Int) + d) % 128) :
    1 + deltaCount d 62 s r = natural := by
  obtain ⟨m, rfl⟩ : ∃ m, natural = m + 1 := ⟨natural - 1, by omega⟩
  rw [deltaCount_unique (n := m) d (by omega) (by simpa using hlen)
    (fun k u v hk hu hv => (eq_deltaNext_iff d u v).2 (hrec k u v (by omega) hu hv))
    (fun hm u v hu hv h => hstop (by omega) u v hu hv ((eq_deltaNext_iff d u v).1 h)), Nat.add_comm]

theorem avoidShadowed_eq (n : Nat) :
    avoidShadowed n = if n = 32 then 31 else if 48 ≤ n ∧ n ≤ 50 then 47 else n := by
  have h : (n = 48 ∨ n = 49 ∨ n = 50) ↔ 48 ≤ n ∧ n ≤ 50 := by omega
  simp only [avoidShadowed, h]

/-- Settles O37: with the natural length found, DeltaSequence is the equation of `deltaAt_cons_cons`. -/
theorem deltaSequenceFollowsRecurrence : Obligations.DeltaSequenceFollowsRecurrence := by
  unfold Obligations.DeltaSequenceFollowsRecurrence
  refine ⟨fun x pos h => deltaAt_of_length_le_one (by rw [List.length_drop]; omega), ?_⟩
  intro x pos n s b d hs hb hd
  obtain ⟨t, ht⟩ : ∃ t, x.drop pos = s :: b :: t := by
    obtain ⟨hpos, rfl⟩ := List.getElem?_eq_some_iff.1 hs
    obtain ⟨hpos', rfl⟩ := List.getElem?_eq_some_iff.1 hb
    exact ⟨_, by rw [List.drop_eq_getElem_cons hpos, List.drop_eq_getElem_cons hpos']⟩
  have hget : ∀ k, x[pos + k]? = (s :: b :: t)[k]? := fun k => by rw [← ht, List.getElem?_drop]
  rw [deltaEval, ht, deltaAt_cons_cons s b t d hd]
  constructor
  · intro natural hmin hmax hrec hlen hstop
    have hnat : 1 + deltaCount d 62 s (b :: t) = natural := by
      refine deltaCount_of_natural hmin hmax ?_ ?_ ?_
      · rw [← ht, List.length_drop]
        omega
      · simpa only [Nat.add_assoc, hget] using hrec
      · simpa only [Nat.add_sub_assoc hmin, hget] using hstop
    rw [hnat, avoidShadowed_eq]
    simp [and_assoc, eq_comm]
  · intro h
    exact ⟨_, if_pos (ite_ne_right_iff.1 h).1⟩

/-! ## PatternMatch (R112 to R116) -/

/-- The count of a candidate is that of its first copy and of the further ones (R113, R114). -/
theorem patternCount_spec {r : List Byte} {p : Nat} (h : p ≤ r.length) :
    1 ≤ patternCount r p ∧ patternCount r p ≤ 15 ∧ patternCount r p * p ≤ r.length ∧
    (∀ c, c < patternCount r p → (r.drop (c * p)).take p = r.take p) ∧
    (patternCount r p < 15 → (patternCount r p + 1) * p ≤ r.length →
      (r.drop (patternCount r p * p)).take p ≠ r.take p) := by
  have hu : (r.take p).length = p := List.length_take_of_le h
  obtain ⟨(hcap : _ ≤ 14), -, hcopy, hstop⟩ := unitCount_spec (r.take p) (patCountMax - 1) (r.drop p)
  have hmul := patternCount_mul_le h
  rw [hu] at hcopy hstop
  simp only [List.drop_drop, List.length_drop, patternCount] at hcopy hstop hmul ⊢
  generalize unitCount (r.take p) (patCountMax - 1) (r.drop p) = m at *
  have hnext : ∀ c, (1 + c) * p = p + c * p := fun c => by rw [Nat.add_mul, Nat.one_mul]
  refine ⟨by omega, by omega, by rwa [Nat.mul_comm], fun c hc => ?_, fun hlt hroom => ?_⟩
  · cases c with
    | zero => simp
    | succ c => simpa only [Nat.add_comm c 1, hnext] using hcopy c (by omega)
  · rw [hnext]
    refine hstop (show m < 14 by omega) ?_
    rw [Nat.add_assoc, hnext] at hroom
    omega

/-- Settles O40: the first copy, then those the repeat counter finds. -/
theorem patternCountCountsRepeats : Obligations.PatternCountCountsRepeats := by
  unfold Obligations.PatternCountCountsRepeats
  exact fun r p _ h => patternCount_spec h

/-- Only a repeated unit saves bytes (R116). -/
theorem two_le_of_patternScore_pos {p c : Nat} (h : 0 < patternScore p c) : 2 ≤ c := by
  by_contra hc
  have hle : c * p ≤ 1 * p := Nat.mul_le_mul_right p (by omega)
  simp only [patternScore] at h
  omega

/-- PatternMatch declines as no candidate has a positive score, or proposes the first candidate of the highest score. -/
theorem patternAt_cases (r : List Byte) :
    (patternAt r = none ∧
      ∀ q, 2 ≤ q → q ≤ 15 → 2 * q ≤ r.length → patternScore q (patternCount r q) ≤ 0) ∨
    ∃ p, 2 ≤ p ∧ p ≤ 15 ∧ 2 * p ≤ r.length ∧ patternAt r = some (.pattern (r.take p) (patternCount r p)) ∧
      0 < patternScore p (patternCount r p) ∧
      (∀ q, 2 ≤ q → q ≤ 15 → 2 * q ≤ r.length →
        patternScore q (patternCount r q) ≤ patternScore p (patternCount r p)) ∧
      (∀ q, 2 ≤ q → q < p → 2 * q ≤ r.length →
        patternScore q (patternCount r q) < patternScore p (patternCount r p)) := by
  have hl : unitLengths.Pairwise (· < ·) := by decide
  obtain ⟨hbest, -, hmax⟩ := foldl_tryUnit_spec r unitLengths ⟨0, 0, 0⟩ hl
  simp only [mem_unitLengths, and_imp] at hbest hmax
  rcases hbest with hf | ⟨p, ⟨hp2, hp15⟩, hlen, hf, hpos, hfirst⟩
  · left
    rw [hf] at hmax
    exact ⟨by simp [patternAt, hf], hmax⟩
  · right
    rw [hf] at hmax hpos hfirst
    refine ⟨p, hp2, hp15, hlen, ?_, hpos, hmax, fun q hq hqp => hfirst q hq (by omega) hqp⟩
    simp only [patternAt, hf]
    exact if_pos ⟨hpos, two_le_of_patternScore_pos hpos⟩

/-- Settles O39: the two cases of `patternAt_cases`. -/
theorem patternMatchMaximisesScore : Obligations.PatternMatchMaximisesScore := by
  unfold Obligations.PatternMatchMaximisesScore
  intro x pos
  have hfits : ∀ q, pos + 2 * q ≤ x.length → 2 * q ≤ (x.drop pos).length := fun q h => by
    rw [List.length_drop]
    omega
  simp only [patternEval]
  rcases patternAt_cases (x.drop pos) with ⟨hnone, hall⟩ | ⟨p, hp2, hp15, hlen, hsome, hpos, hmax, hfirst⟩
  · rw [hnone]
    exact ⟨nofun, fun h => absurd rfl h, fun _ q h2 h15 hq => hall q h2 h15 (hfits q hq)⟩
  · rw [hsome]
    refine ⟨?_, fun _ => ⟨_, _, rfl⟩, nofun⟩
    intro unit count h
    cases h
    rw [List.length_drop] at hlen
    exact ⟨p, hp2, hp15, rfl, rfl, by omega, two_le_of_patternScore_pos hpos, hpos,
      fun q h2 h15 hq => hmax q h2 h15 (hfits q hq), fun q h2 hqp hq => hfirst q h2 hqp (hfits q hq)⟩

/-! ## The literal fallback (R120 to R122) -/

theorem run3At_iff (r : List Byte) :
    run3At r = true ↔ ∃ b, r[0]? = some b ∧ r[1]? = some b ∧ r[2]? = some b := by
  match r with
  | [] => simp [run3At]
  | [_] => simp [run3At]
  | [_, _] => simp [run3At]
  | a :: b :: c :: t =>
    simp only [run3At, Bool.and_eq_true, beq_iff_eq, List.getElem?_cons_zero, List.getElem?_cons_succ,
      Option.some.injEq]
    constructor
    · rintro ⟨rfl, rfl⟩
      exact ⟨a, rfl, rfl, rfl⟩
    · rintro ⟨_, rfl, rfl, rfl⟩
      exact ⟨rfl, rfl⟩

/-- Settles O42: the byte at the cursor, then those the loop of the fallback takes. -/
theorem literalStopsAtOpportunity : Obligations.LiteralStopsAtOpportunity := by
  unfold Obligations.LiteralStopsAtOpportunity
  refine ⟨fun x q => by simp only [run3At_iff, List.getElem?_drop, Nat.add_zero], fun x pos hpos => ?_⟩
  obtain ⟨(hcap : _ ≤ 62), hlen, htaken, hstop⟩ := literalCount_spec (litMax - 1) (x.drop pos).tail
  refine ⟨1 + literalCount (litMax - 1) (x.drop pos).tail, rfl, ?_⟩
  generalize literalCount (litMax - 1) (x.drop pos).tail = m at *
  simp only [List.tail_drop, List.drop_drop, List.length_drop] at hlen htaken hstop
  refine ⟨by omega, by omega, by omega, fun k hk1 hkm => ?_, fun hlt hend => ?_⟩
  · obtain ⟨j, rfl⟩ : ∃ j, k = 1 + j := ⟨k - 1, by omega⟩
    rw [deltaEval, ← Nat.add_assoc]
    exact htaken j (by omega)
  · rw [deltaEval, ← Nat.add_assoc]
    exact hstop (show m < 62 by omega) (by omega)

/-! ## Every proposal stands for the bytes it covers (R100, R108) -/

/-- The token covers at least one byte of the suffix `r` and expands to exactly the bytes it covers. -/
def StandsFor (r : List Byte) (t : Token) : Prop := 1 ≤ cov t ∧ covered t = r.take (cov t)

/-- Every run of equal bytes is the repeated value (R102, R117). -/
theorem replicate_countWhile_beq (v : Byte) (cap : Nat) (r : List Byte) :
    List.replicate (countWhile (· == v) cap r) v = r.take (countWhile (· == v) cap r) := by
  obtain ⟨-, hlen, heq, -⟩ := countWhile_spec (· == v) cap r
  exact replicate_eq_take hlen fun k b hk hb => eq_of_beq (heq k b hk hb)

theorem standsFor_zeroRunAt {r : List Byte} {t : Token} (h : zeroRunAt r = some t) : StandsFor r t := by
  obtain ⟨rfl, hmin⟩ := zeroRunAt_eq_some h
  exact ⟨by simp only [cov]; omega, replicate_countWhile_beq 0 255 r⟩

theorem standsFor_nibbleAt {r : List Byte} {t : Token} (h : nibbleAt r = some t) : StandsFor r t := by
  obtain ⟨n, hn, rfl, hmin⟩ := nibbleAt_eq_some h
  obtain ⟨-, hlen, -, -⟩ := countWhile_eq_iff.1 hn.symm
  have htake : (r.take n).length = n := List.length_take_of_le hlen
  refine ⟨?_, ?_⟩
  · simp only [cov, htake]
    omega
  · simp only [covered, cov, htake]

/-- Shortening a progression (R107) leaves one. -/
theorem standsFor_deltaAt {r : List Byte} {t : Token} (h : deltaAt r = some t) : StandsFor r t := by
  match r with
  | [] => cases h
  | [_] => cases h
  | s :: b :: r =>
    rw [deltaAt_cons_cons s b r _ rfl] at h
    split at h
    · rename_i hd
      cases h
      obtain ⟨-, hlen, hrec, -⟩ := deltaCount_spec (byteInt b - byteInt s) 62 s (b :: r)
      obtain ⟨hle, hmin, -⟩ := avoidShadowed_spec (1 + deltaCount (byteInt b - byteInt s) 62 s (b :: r))
      have := hmin hd.2.2.2
      refine ⟨by simp only [cov]; omega, progression_eq_take _ _ _ _ ?_ fun k u v hk => hrec k u v (by omega)⟩
      simp only [List.length_cons] at hlen ⊢
      omega
    · cases h

theorem standsFor_patternAt {r : List Byte} {t : Token} (h : patternAt r = some t) : StandsFor r t := by
  rcases patternAt_cases r with ⟨hnone, -⟩ | ⟨p, hp2, -, hlen, hsome, -⟩
  · rw [hnone] at h
    cases h
  · rw [hsome] at h
    cases h
    have hu : (r.take p).length = p := List.length_take_of_le (by omega)
    obtain ⟨hc, -, hend, hcopy, -⟩ := patternCount_spec (r := r) (p := p) (by omega)
    refine ⟨Nat.mul_pos (by omega) hc, repeatUnit_eq_take r (r.take p) _ ?_ ?_⟩
    · rwa [hu]
    · rwa [hu]

theorem standsFor_runAt {pal : Vector Byte 8} {r : List Byte} {t : Token} (h : runAt pal r = some t) :
    StandsFor r t := by
  cases r with
  | nil => cases h
  | cons v r =>
    have hrep := replicate_countWhile_beq v runMax (v :: r)
    rw [runAt_of_run rfl rfl] at h
    split at h
    · cases h
    · split at h <;> cases h <;> exact ⟨by simp only [cov]; omega, hrep⟩

theorem standsFor_literalAt {r : List Byte} (h : r ≠ []) : StandsFor r (literalAt r) := by
  have hpos := List.length_pos_of_ne_nil h
  refine ⟨?_, ?_⟩
  · simp only [literalAt, cov, List.length_take]
    omega
  · rw [literalAt, covered, cov, List.length_take]
    exact List.take_eq_take_min ..

theorem standsFor_selectAt (pal : Vector Byte 8) {r : List Byte} (hr : r ≠ []) : StandsFor r (selectAt pal r) := by
  rcases selectAt_cases pal r with h | ⟨-, h⟩ | ⟨-, -, h⟩ | ⟨-, -, -, h⟩ | ⟨-, -, -, -, h⟩ | ⟨-, -, -, -, -, h⟩
  · exact standsFor_zeroRunAt h
  · exact standsFor_deltaAt h
  · exact standsFor_nibbleAt h
  · exact standsFor_patternAt h
  · exact standsFor_runAt h
  · rw [h]
    exact standsFor_literalAt hr

/-- Settles O44: the six ways a token is selected. -/
theorem selectedTokenExpandsToItsBytes : Obligations.SelectedTokenExpandsToItsBytes := by
  unfold Obligations.SelectedTokenExpandsToItsBytes
  intro pal x pos hpos
  have hr : x.drop pos ≠ [] := fun h => by
    have := List.drop_eq_nil_iff.1 h
    omega
  obtain ⟨hmin, hexp⟩ := standsFor_selectAt pal hr
  have hend := cov_selectAt_le pal (x.drop pos)
  rw [List.length_drop] at hend
  exact ⟨hmin, by rw [select]; omega, hexp⟩

/-! ## Zero runs past the cap (R103) -/

/-- A run of zeros is selected as ZeroRun up to the cap. -/
theorem selectAt_zeros (pal : Vector Byte 8) {n : Nat} (h : 3 ≤ n) :
    selectAt pal (List.replicate n 0) = .zeroRun (min n 255) := by
  have hzero : zeroRunAt (List.replicate n 0) = some (.zeroRun (min n 255)) := by
    refine zeroRunAt_eq_some_iff.2 ⟨by omega, countWhile_beq_eq_iff.2 ⟨by simp, fun k hk => ?_, fun hlt => ?_⟩⟩
    · rw [List.getElem?_replicate, if_pos (by omega)]
    · have hn : n < 255 := by simpa using hlt
      rw [List.getElem?_replicate, if_neg (by omega)]
      nofun
  simp only [selectAt, hzero]

/-- One turn of the loop of R131 on zeros: a ZeroRun token, then the stream of the zeros past the cap. -/
theorem compressFrom_zeros {pal : Vector Byte 8} {f n : Nat} {out : List Byte} (h : 3 ≤ n)
    (hrest : compressFrom pal f (List.replicate (n - 255) 0) = .ok out) :
    compressFrom pal (f + 1) (List.replicate n 0) = .ok (packZeroRun (min n 255) ++ out) := by
  have hsel := selectAt_zeros pal h
  have hfit : serialize pal (.zeroRun (min n 255)) = .ok (packZeroRun (min n 255)) :=
    if_pos (decide_eq_true (Nat.min_le_right n 255))
  have hdrop : n - min n 255 = n - 255 := by omega
  rw [compressFrom_step pal (by simp; omega) (hsel ▸ hfit)]
  simp only [hsel, cov, List.drop_replicate, hdrop, hrest]

/-- Settles O54: two turns of the loop, the second on the `m` zeros past the cap. -/
theorem longZeroRunsAreChunked : Obligations.LongZeroRunsAreChunked := by
  unfold Obligations.LongZeroRunsAreChunked
  intro pal m h3 h255
  have hnil : compressFrom pal (m + 253) (List.replicate (m - 255) 0) = .ok [] := by
    rw [Nat.sub_eq_zero_of_le h255]
    rfl
  have htail := compressFrom_zeros h3 hnil
  rw [compress, List.length_replicate, Nat.add_comm 255 m,
    compressFrom_zeros (f := m + 254) (by omega) (by rwa [Nat.add_sub_cancel]), Nat.min_eq_left h255,
    Nat.min_eq_right (Nat.le_add_left 255 m)]
  rfl

end Sys2Proof.Machine
end

section
/-! PROOFS. The encoder: the fields of the selected token, the packer, the encoder step, and the round trip. -/

namespace Sys2Proof.Machine

/-! ## The selector as a priority encoder (R132) -/

/-- The first evaluator that accepts wins, whether the others are looked at or not. -/
theorem selectAt_eq_priorityEncode (pal : Vector Byte 8) (r : List Byte) :
    selectAt pal r = priorityEncode (proposals pal r) (literalAt r) := by
  rcases selectAt_cases pal r with h | ⟨hzero, h⟩ | ⟨hzero, hdelta, h⟩ | ⟨hzero, hdelta, hnibble, h⟩ |
    ⟨hzero, hdelta, hnibble, hpattern, h⟩ | ⟨hzero, hdelta, hnibble, hpattern, hrun, h⟩
  · simp only [proposals, priorityEncode, h]
  · simp only [proposals, priorityEncode, hzero, h]
  · simp only [proposals, priorityEncode, hzero, hdelta, h]
  · simp only [proposals, priorityEncode, hzero, hdelta, hnibble, h]
  · simp only [proposals, priorityEncode, hzero, hdelta, hnibble, hpattern, h]
  · simp only [proposals, priorityEncode, hzero, hdelta, hnibble, hpattern, hrun, h]

/-- Settles O43: the selector at a position is the selector on the suffix that begins there. -/
theorem selectorIsPriorityEncoder : Obligations.SelectorIsPriorityEncoder := by
  unfold Obligations.SelectorIsPriorityEncoder
  exact fun pal x pos => selectAt_eq_priorityEncode pal (x.drop pos)

/-! ## The fields of a selected token (R75, R107, R114, R116, R119) -/

/-- The fields of the token lie in the "encoder produces" ranges of R75. -/
def InProducedRanges (pal : Vector Byte 8) : Token → Prop
  | .literal bytes => 1 ≤ bytes.length ∧ bytes.length ≤ 63
  | .run v n => 3 ≤ n ∧ n ≤ 5 ∧ v ≠ 0
  | .commonRun v n => 3 ≤ n ∧ n ≤ 5 ∧ v ≠ 0 ∧ v ∈ pal.toList
  | .zeroRun n => 3 ≤ n ∧ n ≤ 255
  | .delta _ d n => 3 ≤ n ∧ n ≤ 63 ∧ n ≠ 32 ∧ n ≠ 48 ∧ n ≠ 49 ∧ n ≠ 50 ∧ -15 ≤ d ∧ d ≤ 15 ∧ d ≠ 0
  | .nibble values => 4 ≤ values.length ∧ values.length ≤ 62 ∧ ∀ v ∈ values, v.toNat ≤ 15
  | .pattern unit count => 2 ≤ unit.length ∧ unit.length ≤ 15 ∧ 2 ≤ count ∧ count ≤ 15

theorem inProducedRanges_zeroRunAt (pal : Vector Byte 8) {r : List Byte} {t : Token} (h : zeroRunAt r = some t) :
    InProducedRanges pal t := by
  obtain ⟨rfl, hmin⟩ := zeroRunAt_eq_some h
  exact ⟨hmin, (countWhile_spec _ 255 r).1⟩

theorem inProducedRanges_deltaAt (pal : Vector Byte 8) {r : List Byte} {t : Token} (h : deltaAt r = some t) :
    InProducedRanges pal t := by
  match r with
  | [] => cases h
  | [_] => cases h
  | s :: b :: r =>
    rw [deltaAt_cons_cons s b r _ rfl] at h
    split at h
    · rename_i hd
      cases h
      obtain ⟨hlo, hhi, hne, hnatural⟩ := hd
      have hcap := (deltaCount_spec (byteInt b - byteInt s) 62 s (b :: r)).1
      obtain ⟨hle, hmin, h32, h48, h49, h50⟩ :=
        avoidShadowed_spec (1 + deltaCount (byteInt b - byteInt s) 62 s (b :: r))
      exact ⟨hmin hnatural, by omega, h32, h48, h49, h50, hlo, hhi, hne⟩
    · cases h

theorem inProducedRanges_nibbleAt (pal : Vector Byte 8) {r : List Byte} {t : Token} (h : nibbleAt r = some t) :
    InProducedRanges pal t := by
  obtain ⟨n, -, rfl, -⟩ := nibbleAt_eq_some h
  obtain ⟨hmin, hmax, -, hsmall, -⟩ := nibbleAt_eq_some_iff.1 h
  exact ⟨hmin, hmax, fun v hv => Nat.le_of_lt_succ (hsmall v hv)⟩

theorem inProducedRanges_patternAt (pal : Vector Byte 8) {r : List Byte} {t : Token} (h : patternAt r = some t) :
    InProducedRanges pal t := by
  rcases patternAt_cases r with ⟨hnone, -⟩ | ⟨p, hp2, hp15, hlen, hsome, hpos, -⟩
  · rw [hnone] at h
    cases h
  · rw [hsome] at h
    cases h
    have hu : (r.take p).length = p := List.length_take_of_le (by omega)
    have hcap := (patternCount_spec (r := r) (p := p) (by omega)).2.1
    exact ⟨by rwa [hu], by rwa [hu], two_le_of_patternScore_pos hpos, hcap⟩

/-- ZeroRun leaves no three zeros to a later evaluator (R119). -/
theorem zeroRunAt_ne_none {r : List Byte} (h : ∀ k, k < 3 → r[k]? = some 0) : zeroRunAt r ≠ none := by
  have hmin : 3 ≤ countWhile (· == 0) zeroRunMax r := by
    by_contra hlt
    obtain ⟨-, -, hstop⟩ := countWhile_beq_eq_iff.1 (rfl : countWhile (· == 0) zeroRunMax r = _)
    exact hstop ((Nat.not_le.1 hlt).trans (by decide)) (h _ (by omega))
  rw [zeroRunAt_eq_some_iff.2 ⟨hmin, rfl⟩]
  nofun

/-- PatternMatch leaves no six equal bytes to RunLength: two of them, three times, already save bytes (R116). -/
theorem patternAt_ne_none {r : List Byte} {v : Byte} (h : ∀ k, k < 6 → r[k]? = some v) : patternAt r ≠ none := by
  intro hnone
  have hlen : 6 ≤ r.length := by
    by_contra hlt
    simpa using h r.length (by omega)
  have hpair : ∀ k, k + 2 ≤ 6 → (r.drop k).take 2 = [v, v] := fun k hk => by
    refine (replicate_eq_take (n := 2) (v := v) (by rw [List.length_drop]; omega) fun j b hj hb => ?_).symm
    rw [List.getElem?_drop, h (k + j) (by omega)] at hb
    exact (Option.some.inj hb).symm
  obtain ⟨-, -, -, -, hstop⟩ := patternCount_spec (r := r) (p := 2) (by omega)
  have hthree : 3 ≤ patternCount r 2 := by
    by_contra hlt
    exact hstop (by omega) (by omega) ((hpair _ (by omega)).trans (hpair 0 (by omega)).symm)
  rcases patternAt_cases r with ⟨-, hscore⟩ | ⟨p, -, -, -, hsome, -⟩
  · have hle := hscore 2 (by omega) (by omega) (by omega)
    simp only [patternScore] at hle
    omega
  · rw [hnone] at hsome
    cases hsome

/-- What ZeroRun and PatternMatch leave to RunLength is a run of 3 to 5 bytes that are not 0 (R116, R119). -/
theorem inProducedRanges_runAt {pal : Vector Byte 8} {r : List Byte} {t : Token} (hzero : zeroRunAt r = none)
    (hpattern : patternAt r = none) (h : runAt pal r = some t) : InProducedRanges pal t := by
  cases r with
  | nil => cases h
  | cons v r =>
    rw [runAt_of_run rfl rfl] at h
    obtain ⟨-, heq, -⟩ := countWhile_beq_eq_iff.1 (rfl : countWhile (· == v) runMax (v :: r) = _)
    split at h
    · cases h
    · have hmin : 3 ≤ countWhile (· == v) runMax (v :: r) := by omega
      have hmax : countWhile (· == v) runMax (v :: r) ≤ 5 := by
        by_contra hlt
        exact patternAt_ne_none (fun k hk => heq k (by omega)) hpattern
      have hv : v ≠ 0 := by
        rintro rfl
        exact zeroRunAt_ne_none (fun k hk => heq k (by omega)) hzero
      split at h
      · rename_i hpal
        cases h
        exact ⟨hmin, hmax, hv, hpal.1⟩
      · cases h
        exact ⟨hmin, hmax, hv⟩

theorem inProducedRanges_literalAt (pal : Vector Byte 8) {r : List Byte} (hr : r ≠ []) :
    InProducedRanges pal (literalAt r) := by
  have hpos := List.length_pos_of_ne_nil hr
  obtain ⟨(hcap : _ ≤ 62), -⟩ := literalCount_spec (litMax - 1) r.tail
  constructor <;> rw [List.length_take] <;> omega

theorem inProducedRanges_selectAt (pal : Vector Byte 8) {r : List Byte} (hr : r ≠ []) :
    InProducedRanges pal (selectAt pal r) := by
  rcases selectAt_cases pal r with h | ⟨-, h⟩ | ⟨-, -, h⟩ | ⟨-, -, -, h⟩ | ⟨hzero, -, -, hpattern, h⟩ |
    ⟨-, -, -, -, -, h⟩
  · exact inProducedRanges_zeroRunAt pal h
  · exact inProducedRanges_deltaAt pal h
  · exact inProducedRanges_nibbleAt pal h
  · exact inProducedRanges_patternAt pal h
  · exact inProducedRanges_runAt hzero hpattern h
  · rw [h]
    exact inProducedRanges_literalAt pal hr

/-! ## The field check (R141) -/

/-- The test of each token in the table of R141. -/
def FieldsInLayout (pal : Vector Byte 8) : Token → Prop
  | .literal bytes => bytes.length ≤ 63
  | .run _ n => n ≤ 63
  | .delta _ d n => n ≤ 63 ∧ n ∉ [32, 48, 49, 50] ∧ 0 ≤ d + 16 ∧ d + 16 ≤ 255
  | .nibble values => values.length ≤ 63 ∧ ∀ v ∈ values, v.toNat ≤ 15
  | .zeroRun n => n ≤ 255
  | .pattern unit count => unit.length ≤ 15 ∧ count ≤ 15
  | .commonRun v n => v ∈ pal.toList ∧ n ≤ 15

theorem shadowedLength_eq_false_iff (n : Nat) : shadowedLength n = false ↔ n ∉ [32, 48, 49, 50] := by
  simp [shadowedLength, and_assoc]

theorem fieldsFit_iff {pal : Vector Byte 8} {t : Token} : fieldsFit pal t = true ↔ FieldsInLayout pal t := by
  cases t with
  | literal bytes => exact decide_eq_true_iff
  | run v n => exact decide_eq_true_iff
  | commonRun v n => simp only [fieldsFit, FieldsInLayout, Bool.and_eq_true, inPalette_iff, decide_eq_true_eq]
  | zeroRun n => exact decide_eq_true_iff
  | delta start d n =>
    simp only [fieldsFit, FieldsInLayout, Bool.and_eq_true, Bool.not_eq_true', shadowedLength_eq_false_iff,
      decide_eq_true_eq, and_assoc]
  | nibble values => simp only [fieldsFit, FieldsInLayout, Bool.and_eq_true, List.all_eq_true, decide_eq_true_eq]
  | pattern unit count => simp only [fieldsFit, FieldsInLayout, Bool.and_eq_true, decide_eq_true_eq]

theorem serialize_eq_error_iff {pal : Vector Byte 8} {t : Token} :
    serialize pal t = .error .fieldTruncated ↔ fieldsFit pal t = false := by
  cases h : fieldsFit pal t <;> simp [serialize, h]

theorem serialize_eq_ok_iff {pal : Vector Byte 8} {t : Token} {bytes : List Byte} :
    serialize pal t = .ok bytes ↔ fieldsFit pal t = true ∧ pack pal t = bytes := by
  cases h : fieldsFit pal t <;> simp [serialize, h]

/-- Settles O46: `serialize` tests `fieldsFit` first, and `fieldsFit` is the table of R141. -/
theorem fieldCheckGuardsEveryField : Obligations.FieldCheckGuardsEveryField := by
  unfold Obligations.FieldCheckGuardsEveryField
  exact fun pal t => ⟨serialize_eq_error_iff, fieldsFit_iff⟩

/-- The produced ranges lie inside the ranges the layout holds (R75, R150). -/
theorem fieldsFit_of_inProducedRanges {pal : Vector Byte 8} {t : Token} (h : InProducedRanges pal t) :
    fieldsFit pal t = true := by
  rw [fieldsFit_iff]
  cases t with
  | literal bytes => exact h.2
  | run v n =>
    obtain ⟨-, hmax, -⟩ := h
    exact hmax.trans (by decide)
  | commonRun v n =>
    obtain ⟨-, hmax, -, hpal⟩ := h
    exact ⟨hpal, hmax.trans (by decide)⟩
  | zeroRun n => exact h.2
  | delta start d n =>
    obtain ⟨-, hmax, h32, h48, h49, h50, hlo, hhi, -⟩ := h
    exact ⟨hmax, by simp [h32, h48, h49, h50], by omega, by omega⟩
  | nibble values =>
    obtain ⟨-, hmax, hsmall⟩ := h
    exact ⟨hmax.trans (by decide), hsmall⟩
  | pattern unit count =>
    obtain ⟨-, hunit, -, hcount⟩ := h
    exact ⟨hunit, hcount⟩

/-- Settles O45: the produced ranges of the selected token, and with them the field check. -/
theorem selectedTokenFieldRanges : Obligations.SelectedTokenFieldRanges := by
  unfold Obligations.SelectedTokenFieldRanges
  intro pal x pos hpos
  have hr : x.drop pos ≠ [] := mt List.drop_eq_nil_iff.1 (Nat.not_le.2 hpos)
  have hrange := inProducedRanges_selectAt pal hr
  exact ⟨fieldsFit_of_inProducedRanges hrange, hrange⟩

/-- The selected token always packs (R150). -/
theorem serialize_selectAt (pal : Vector Byte 8) {r : List Byte} (hr : r ≠ []) :
    serialize pal (selectAt pal r) = .ok (pack pal (selectAt pal r)) :=
  serialize_eq_ok_iff.2 ⟨fieldsFit_of_inProducedRanges (inProducedRanges_selectAt pal hr), rfl⟩

/-! ## The instruction a token is packed as (R142 to R148) -/

/-- The instruction whose encoding the packer forms, field by field. -/
def packedInstr (pal : Vector Byte 8) : Token → Instr
  | .literal bytes => .literal bytes
  | .run v n => .run (BitVec.ofNat 6 n) v
  | .commonRun v n => .commonRun (BitVec.ofNat 4 n) (BitVec.ofNat 4 ((paletteIndex pal v).getD 0))
  | .zeroRun n => .zeroRun (BitVec.ofNat 8 n)
  | .delta start d n => .delta (BitVec.ofNat 6 n) start (BitVec.ofNat 8 (d + 16).toNat)
  | .nibble values => .nibble (BitVec.ofNat 6 values.length) (packNibbles values)
  | .pattern unit count => .pattern (BitVec.ofNat 4 count) unit

/-- A value that passes its test of R141 stands unchanged in its field. -/
theorem toNat_field {w n : Nat} (h : n ≤ 2 ^ w - 1) : (BitVec.ofNat w n).toNat = n := by
  have hw := Nat.two_pow_pos w
  rw [BitVec.toNat_ofNat, Nat.mod_eq_of_lt (by omega)]

/-- The delta byte with its bias, read back as an integer (R83, R144). -/
theorem toNat_deltaByte {d : Int} (hlo : 0 ≤ d + 16) (hhi : d + 16 ≤ 255) :
    ((BitVec.ofNat 8 (d + 16).toNat).toNat : Int) = d + 16 := by
  rw [toNat_field (w := 8) (by omega), Int.toNat_of_nonneg hlo]

/-- The palette index of a CommonRun fits its field and is the least that holds the value (R8, R12, R147). -/
theorem paletteField_spec {pal : Vector Byte 8} {v : Byte} (h : v ∈ pal.toList) :
    (paletteIndex pal v).getD 0 ≤ 15 ∧
      pal.toList[(BitVec.ofNat 4 ((paletteIndex pal v).getD 0)).toNat]? = some v ∧
      ∀ j, j < (BitVec.ofNat 4 ((paletteIndex pal v).getD 0)).toNat → pal.toList[j]? ≠ some v := by
  obtain ⟨k, hk, hlt, hget, hleast⟩ := paletteIndex_of_inPalette ((inPalette_iff pal v).2 h)
  have hfield : (BitVec.ofNat 4 k).toNat = k := toNat_field (w := 4) (by omega)
  rw [hk, Option.getD_some, hfield]
  exact ⟨by omega, hget, hleast⟩

theorem packedAs_packedInstr {pal : Vector Byte 8} {t : Token} (h : FieldsInLayout pal t) :
    PackedAs pal (packedInstr pal t) t := by
  cases t with
  | literal bytes => exact rfl
  | run v n => exact ⟨_, toNat_field (w := 6) h, rfl⟩
  | commonRun v n =>
    obtain ⟨hpal, hn⟩ := h
    obtain ⟨-, hget, hleast⟩ := paletteField_spec hpal
    exact ⟨_, _, toNat_field (w := 4) hn, rfl, hget, hleast⟩
  | zeroRun n => exact ⟨_, toNat_field (w := 8) h, rfl⟩
  | delta start d n =>
    obtain ⟨hn, -, hlo, hhi⟩ := h
    exact ⟨_, _, toNat_field (w := 6) hn, toNat_deltaByte hlo hhi, rfl⟩
  | nibble values =>
    obtain ⟨hn, hsmall⟩ := h
    obtain ⟨hvalue, hpad⟩ := packNibbles_getElem? values hsmall
    exact ⟨_, _, toNat_field (w := 6) hn, packNibbles_length values, rfl, hvalue, hpad⟩
  | pattern unit count => exact ⟨_, toNat_field (w := 4) h.2, rfl⟩

theorem wellFormed_packedInstr {pal : Vector Byte 8} {t : Token} (h : FieldsInLayout pal t) :
    (packedInstr pal t).wellFormed = true := by
  cases t with
  | literal bytes => exact decide_eq_true h
  | run v n => rfl
  | commonRun v n => rfl
  | zeroRun n => rfl
  | delta start d n =>
    obtain ⟨hn, hshadow, -⟩ := h
    simp only [packedInstr, Instr.wellFormed, toNat_field (w := 6) hn, (shadowedLength_eq_false_iff n).2 hshadow,
      Bool.not_false]
  | nibble values =>
    simp only [packedInstr, Instr.wellFormed, toNat_field (w := 6) h.1, packNibbles_length, beq_self_eq_true]
  | pattern unit count => exact decide_eq_true h.1

/-- The packer's shifts and ors form the fields of R74. -/
theorem encode_packedInstr {pal : Vector Byte 8} {t : Token} (h : FieldsInLayout pal t) :
    encode (packedInstr pal t) = pack pal t := by
  cases t with
  | literal bytes =>
    obtain ⟨hcontrol, -, -, -⟩ := trunc8_control bytes.length h
    exact congrArg (· :: bytes) hcontrol.symm
  | run v n =>
    obtain ⟨-, -, hcontrol, -⟩ := trunc8_control n h
    exact congrArg (· :: [v]) hcontrol.symm
  | commonRun v n =>
    obtain ⟨hpal, hn⟩ := h
    obtain ⟨hk, -, -⟩ := paletteField_spec hpal
    obtain ⟨hinfo, -⟩ := trunc8_info n _ hn hk
    exact congrArg (fun info => [0xF2, info]) hinfo.symm
  | zeroRun n => rfl
  | delta start d n =>
    obtain ⟨-, -, -, hcontrol⟩ := trunc8_control n h.1
    exact congrArg (· :: [start, trunc8 (d + 16).toNat]) hcontrol.symm
  | nibble values =>
    obtain ⟨-, hcontrol, -, -⟩ := trunc8_control values.length h.1
    exact congrArg (· :: packNibbles values) hcontrol.symm
  | pattern unit count =>
    obtain ⟨hunit, hcount⟩ := h
    obtain ⟨hinfo, hmask⟩ := trunc8_info unit.length count hunit hcount
    rw [pack, packPattern, hmask, hinfo]
    rfl

/-- The packed instruction gives back the bytes the token stands for (R170 to R177). -/
theorem expand_packedInstr {pal : Vector Byte 8} {t : Token} (h : FieldsInLayout pal t) :
    ∃ size, expand pal (packedInstr pal t) = .ok (size, covered t) := by
  cases t with
  | literal bytes => exact ⟨_, rfl⟩
  | run v n =>
    simp only [packedInstr, expand, expandRun, toNat_field (w := 6) h, covered]
    exact ⟨_, rfl⟩
  | commonRun v n =>
    obtain ⟨hpal, hn⟩ := h
    obtain ⟨-, hget, -⟩ := paletteField_spec hpal
    simp only [packedInstr, expand, expandCommonRun, hget, toNat_field (w := 4) hn, covered]
    exact ⟨_, rfl⟩
  | zeroRun n =>
    simp only [packedInstr, expand, expandZeroRun, toNat_field (w := 8) h, covered]
    exact ⟨_, rfl⟩
  | delta start d n =>
    obtain ⟨hn, -, hlo, hhi⟩ := h
    have hd : deltaOfByte (BitVec.ofNat 8 (d + 16).toNat) = d := by
      rw [deltaOfByte, byteInt, toNat_deltaByte hlo hhi]
      omega
    simp only [packedInstr, expand, expandDelta, toNat_field (w := 6) hn, hd, covered]
    exact ⟨_, rfl⟩
  | nibble values =>
    obtain ⟨hn, hsmall⟩ := h
    simp only [packedInstr, expand, expandNibble, toNat_field (w := 6) hn, unpack_packNibbles values hsmall, covered]
    exact ⟨_, rfl⟩
  | pattern unit count =>
    simp only [packedInstr, expand, expandPattern, toNat_field (w := 4) h.2, covered]
    exact ⟨_, rfl⟩

/-- Settles O47: the packed instruction is `packedInstr`. -/
theorem packedTokenExpandsBack : Obligations.PackedTokenExpandsBack := by
  unfold Obligations.PackedTokenExpandsBack
  intro pal t bytes hs
  obtain ⟨hfit, rfl⟩ := serialize_eq_ok_iff.1 hs
  have h := fieldsFit_iff.1 hfit
  obtain ⟨size, hexp⟩ := expand_packedInstr h
  have hwf := wellFormed_packedInstr h
  have henc := encode_packedInstr h
  refine ⟨packedInstr pal t, packedAs_packedInstr h, hwf, henc, ?_⟩
  rw [hexp, expand_size hwf hexp, henc]

/-- Settles O48: the seven layouts, and a shadowed Delta length and a value outside the palette. -/
theorem packerExamples : Obligations.PackerExamples := by
  unfold Obligations.PackerExamples
  rintro pal rfl
  exact ⟨rfl, rfl, rfl, rfl, rfl, rfl, rfl, rfl, rfl, rfl⟩

/-- Settles O24: the decoder evaluated on each word. -/
theorem specWordsDecode : Obligations.SpecWordsDecode := by
  unfold Obligations.SpecWordsDecode
  exact ⟨rfl, rfl, rfl, rfl, rfl, rfl, rfl, rfl, rfl⟩

/-! ## The encoder step (R133) and the errors of a running operation (R195, R196) -/

/-- A step of a running COMPRESS is the encoder step (R133). -/
theorem step_of_encoderReady {s : State} {r : List Byte} (h : EncoderReady s r) : step s = encStep r s := by
  simp [step, h.host, engineTurn, h.status, h.cursor, tokenStep, h.rest, h.op]

theorem ne_nil_of_encoderReady {s : State} {r : List Byte} (h : EncoderReady s r) : r ≠ [] := by
  rintro rfl
  have hlen := remaining_length h.rest
  have hcursor := h.cursor
  rw [List.length_nil] at hlen
  omega

/-- The encoder step appends the bytes of the selected token: the packer never refuses it (R150). -/
theorem step_encoder {s : State} {r : List Byte} (h : EncoderReady s r) :
    step s = appendAndAdvance (pack s.par.palette (selectAt s.par.palette r)) (cov (selectAt s.par.palette r)) s := by
  rw [step_of_encoderReady h]
  simp only [encStep, serialize_selectAt s.par.palette (ne_nil_of_encoderReady h)]

/-- Settles O49: the two cases of the shared append. -/
theorem encStepPacksSelectedToken : Obligations.EncStepPacksSelectedToken := by
  unfold Obligations.EncStepPacksSelectedToken
  intro s r h
  refine ⟨_, serialize_selectAt s.par.palette (ne_nil_of_encoderReady h), fun hfits => ?_, fun hfull => ?_⟩
  · rw [step_encoder h]
    exact appendAndAdvance_appended hfits
  · exact ⟨_, (step_encoder h).trans (appendAndAdvance_full hfull), failedWith_raise _ s⟩

/-- A token's group that ends a running operation in FAILED does not fit (R211). -/
theorem err_of_appendAndAdvance {bytes : List Byte} {size : Nat} {s t : State} (hs : s.status = .busy)
    (h : appendAndAdvance bytes size s = .next t) (ht : t.status = .failed) : t.err = some .allocationFailure := by
  rcases appendAndAdvance_cases bytes size s with ⟨-, he⟩ | ⟨-, he⟩
  · rw [he] at h
    cases h
    cases hs.symm.trans ht
  · rw [he] at h
    cases h
    rfl

/-- The errors of a token's own rule (R177, R178). -/
theorem expand_eq_error {pal : Vector Byte 8} {i : Instr} {e : CodecError} (h : expand pal i = .error e) :
    e = .invalidPaletteIndex ∨ e = .unknownEscape := by
  cases i with
  | commonRun n k =>
    simp only [expand] at h
    split at h
    · cases h
    · cases h
      exact .inl rfl
  | reservedF1 =>
    cases h
    exact .inr rfl
  | _ => cases h

/-- Settles O50: an encoder step can only run out of room; a decoder step can also find the token cut short, or fail
by the token's own rule. -/
theorem errorsOfEachOperation : Obligations.ErrorsOfEachOperation := by
  unfold Obligations.ErrorsOfEachOperation
  constructor
  · intro s t r h hstep ht
    exact err_of_appendAndAdvance h.status ((step_encoder h).symm.trans hstep) ht
  · intro s t r h hstep ht
    rw [step_of_decoderReady h] at hstep
    cases hd : decodeToken r with
    | error e =>
      cases e with
      | noControlByte =>
        simp only [decStep, hd] at hstep
        cases hstep
      | truncated =>
        simp only [decStep, hd] at hstep
        cases hstep
        exact .inl rfl
    | ok token =>
      obtain ⟨i, rest⟩ := token
      simp only [decStep, hd] at hstep
      cases he : expand s.par.palette i with
      | error e =>
        rw [exec_of_expand_error he] at hstep
        cases hstep
        rcases expand_eq_error he with rfl | rfl
        · exact .inr (.inl rfl)
        · exact .inr (.inr (.inl rfl))
      | ok expansion =>
        rw [exec_of_expand_ok he] at hstep
        exact .inr (.inr (.inr (err_of_appendAndAdvance h.status hstep ht)))

/-! ## The two operations as functions (R131, R151, R161) -/

/-- The bytes of a selected token are at most twice as many as it covers (R137). -/
theorem pack_length_le {pal : Vector Byte 8} {t : Token} (h : InProducedRanges pal t) :
    (pack pal t).length ≤ 2 * cov t := by
  cases t with
  | literal bytes =>
    obtain ⟨hmin, -⟩ := h
    simp only [pack, packLiteral, cov, List.length_cons]
    omega
  | run v n =>
    obtain ⟨hmin, -⟩ := h
    simp only [pack, packRun, cov, List.length_cons, List.length_nil]
    omega
  | commonRun v n =>
    obtain ⟨hmin, -⟩ := h
    simp only [pack, packCommonRun, cov, List.length_cons, List.length_nil]
    omega
  | zeroRun n =>
    obtain ⟨hmin, -⟩ := h
    simp only [pack, packZeroRun, cov, List.length_cons, List.length_nil]
    omega
  | delta start d n =>
    obtain ⟨hmin, -⟩ := h
    simp only [pack, packDelta, cov, List.length_cons, List.length_nil]
    omega
  | nibble values =>
    obtain ⟨hmin, -⟩ := h
    simp only [pack, packNibble, cov, List.length_cons, packNibbles_length]
    omega
  | pattern unit count =>
    obtain ⟨hunit, -, hcount, -⟩ := h
    have hmul : unit.length * 2 ≤ unit.length * count := Nat.mul_le_mul_left _ hcount
    simp only [pack, packPattern, cov, List.length_cons]
    omega

/-- One token of the round trip: the decoder reads the selected token back from the head of the stream, and its
expansion is the bytes the encoder's cursor moves past. -/
theorem decode_pack_selectAt (pal : Vector Byte 8) {r : List Byte} (hr : r ≠ []) (rest : List Byte) :
    ∃ i size, decodeToken (pack pal (selectAt pal r) ++ rest) = .ok (i, rest) ∧
      expand pal i = .ok (size, r.take (cov (selectAt pal r))) := by
  obtain ⟨i, -, hwf, henc, hexp⟩ := packedTokenExpandsBack pal _ _ (serialize_selectAt pal hr)
  obtain ⟨-, hcovered⟩ := standsFor_selectAt pal hr
  exact ⟨i, _, henc ▸ decodeOfEncodeIsIdentity i rest hwf, hcovered ▸ hexp⟩

/-- One turn of the loop of R161. -/
theorem decompress_append {pal : Vector Byte 8} {bytes rest exp out : List Byte} {i : Instr} {size : Nat}
    (hd : decodeToken (bytes ++ rest) = .ok (i, rest)) (he : expand pal i = .ok (size, exp))
    (hrest : decompress pal rest = .ok out) : decompress pal (bytes ++ rest) = .ok (exp ++ out) := by
  have hlen := decodeToken_length hd
  rw [decompress, decompressFrom_fuel pal _ ((bytes ++ rest).length + 1) _ (Nat.le_refl _) (Nat.le_succ _),
    decompressFrom_step pal hd he, decompressFrom_fuel pal _ rest.length rest hlen.le (Nat.le_refl _),
    ← decompress, hrest]

/-- With a turn for every byte left, the loop of R131 ends with the whole input encoded: no error, at most twice the
input's length, and the stream decodes to the input. -/
theorem compressFrom_total (pal : Vector Byte 8) (fuel : Nat) (r : List Byte) (hfuel : r.length ≤ fuel) :
    ∃ y, compressFrom pal fuel r = .ok y ∧ y.length ≤ 2 * r.length ∧ decompress pal y = .ok r := by
  induction fuel generalizing r with
  | zero =>
    obtain rfl := List.length_eq_zero_iff.1 (Nat.le_zero.1 hfuel)
    exact ⟨[], rfl, Nat.le_refl _, rfl⟩
  | succ fuel ih =>
    by_cases hr : r = []
    · subst hr
      exact ⟨[], rfl, Nat.le_refl _, rfl⟩
    · obtain ⟨hmin, -⟩ := standsFor_selectAt pal hr
      have hmax := cov_selectAt_le pal r
      have hsize := pack_length_le (inProducedRanges_selectAt pal hr)
      have hdrop : (r.drop (cov (selectAt pal r))).length = r.length - cov (selectAt pal r) := List.length_drop
      obtain ⟨y, hy, hlen, hback⟩ := ih (r.drop (cov (selectAt pal r))) (by omega)
      obtain ⟨i, size, hd, he⟩ := decode_pack_selectAt pal hr y
      refine ⟨pack pal (selectAt pal r) ++ y, ?_, ?_, ?_⟩
      · rw [compressFrom_step pal hr (serialize_selectAt pal hr), hy]
      · rw [List.length_append]
        omega
      · rw [decompress_append hd he hback, List.take_append_drop]

/-- Settles O51: the loop of R131 with a turn for every byte. -/
theorem compressIsTotalAndBounded : Obligations.CompressIsTotalAndBounded := by
  unfold Obligations.CompressIsTotalAndBounded
  intro pal x
  obtain ⟨y, hy, hlen, -⟩ := compressFrom_total pal x.length x (Nat.le_refl _)
  exact ⟨y, hy, hlen⟩

/-- Settles O52: by induction on the turns of the encoder's loop, each token read back by one turn of the decoder's. -/
theorem decompressInvertsCompress : Obligations.DecompressInvertsCompress := by
  unfold Obligations.DecompressInvertsCompress
  intro pal x
  obtain ⟨y, hy, -, hback⟩ := compressFrom_total pal x.length x (Nat.le_refl _)
  exact ⟨y, hy, hback⟩

/-- Settles O53: neither loop takes a turn. -/
theorem emptyInputGivesEmptyOutput : Obligations.EmptyInputGivesEmptyOutput := by
  unfold Obligations.EmptyInputGivesEmptyOutput
  exact fun pal => ⟨rfl, rfl⟩

end Sys2Proof.Machine
end

section
/-! PROOFS. The decoder step: what each token does when it runs, the order of its checks, and the expansion bound. -/

namespace Sys2Proof

/-! ## Reading a token (R165, R170 to R176) -/

/-- The availability test succeeds when there are enough bytes (R165). -/
theorem takeBytes_available {k : Nat} {t : List Byte} (h : k ≤ t.length) :
    takeBytes k t = .ok (t.take k, t.drop k) :=
  takeBytes_eq_ok.2 ⟨List.length_take_of_le h, (List.take_append_drop k t).symm⟩

theorem decodeLiteral_available {n : BitVec 6} {t : List Byte} (h : n.toNat ≤ t.length) :
    decodeLiteral n t = .ok (.literal (t.take n.toNat), t.drop n.toNat) := by
  simp only [decodeLiteral, takeBytes_available h]

theorem decodeLiteral_truncated {n : BitVec 6} {t : List Byte} (h : t.length < n.toNat) :
    decodeLiteral n t = .error .truncated := by
  simp only [decodeLiteral, takeBytes_truncated h]

theorem decodeNibble_available {n : BitVec 6} {t : List Byte} (h : (n.toNat + 1) / 2 ≤ t.length) :
    decodeNibble n t = .ok (.nibble n (t.take ((n.toNat + 1) / 2)), t.drop ((n.toNat + 1) / 2)) := by
  simp only [decodeNibble, takeBytes_available h]

theorem decodeNibble_truncated {n : BitVec 6} {t : List Byte} (h : t.length < (n.toNat + 1) / 2) :
    decodeNibble n t = .error .truncated := by
  simp only [decodeNibble, takeBytes_truncated h]

theorem decodeDelta_truncated (n : BitVec 6) {t : List Byte} (h : t.length < 2) :
    decodeDelta n t = .error .truncated := by
  match t with
  | [] => rfl
  | [_] => rfl
  | _ :: _ :: t => exact absurd h (Nat.not_lt.2 (Nat.le_add_left 2 t.length))

/-- The high nibble of a byte, as the quotient by 16 (R9). -/
theorem hiNibble_eq_ofNat (b : Byte) : hiNibble b = BitVec.ofNat 4 (b.toNat / 16) := by
  revert b; decide +kernel

/-- The low nibble of a byte, as the remainder by 16 (R9). -/
theorem loNibble_eq_ofNat (b : Byte) : loNibble b = BitVec.ofNat 4 (b.toNat % 16) := by
  revert b; decide +kernel

theorem toNat_hiNibble (b : Byte) : (hiNibble b).toNat = b.toNat / 16 := by
  have hb := b.isLt
  rw [hiNibble_eq_ofNat, BitVec.toNat_ofNat]
  omega

theorem toNat_loNibble (b : Byte) : (loNibble b).toNat = b.toNat % 16 := by
  rw [loNibble_eq_ofNat, BitVec.toNat_ofNat]
  omega

theorem decodePattern_available {info : Byte} {t : List Byte} (h : info.toNat / 16 ≤ t.length) :
    decodePattern (info :: t) =
      .ok (.pattern (BitVec.ofNat 4 (info.toNat % 16)) (t.take (info.toNat / 16)), t.drop (info.toNat / 16)) := by
  simp only [decodePattern, toNat_hiNibble, loNibble_eq_ofNat, takeBytes_available h]

theorem decodePattern_truncated {info : Byte} {t : List Byte} (h : t.length < info.toNat / 16) :
    decodePattern (info :: t) = .error .truncated := by
  simp only [decodePattern, toNat_hiNibble, takeBytes_truncated h]

/-! ## The control bytes of a mode (R70, R88) -/

theorem eq_controlByte_of_range {c : Byte} (m : BitVec 2) (hlo : 64 * m.toNat ≤ c.toNat)
    (hhi : c.toNat ≤ 64 * m.toNat + 63) : ∃ n, c = controlByte m n := by
  obtain ⟨hm, -⟩ := fields_of_range m hlo hhi
  exact ⟨lengthField c, hm ▸ (controlByte_fields c).symm⟩

theorem toNat_controlByte_sub (m : BitVec 2) (n : BitVec 6) : (controlByte m n).toNat - 64 * m.toNat = n.toNat := by
  rw [toNat_controlByte, Nat.add_sub_cancel_left]

/-- The length field, from the position of the control byte in its mode's range. -/
theorem ofNat_controlByte_sub (m : BitVec 2) (n : BitVec 6) :
    BitVec.ofNat 6 ((controlByte m n).toNat - 64 * m.toNat) = n := by
  rw [toNat_controlByte_sub, BitVec.ofNat_toNat, BitVec.setWidth_eq]

/-- Mode 11 outside the sentinels is a Delta's control byte (R88, R93). -/
theorem eq_controlByte_of_delta {c : Byte} (hlo : 0xC0 ≤ c.toNat) (hc : c ∉ sentinels) :
    ∃ n, c = controlByte 3 n ∧ shadowedLength n.toNat = false := by
  obtain ⟨-, -, -, -, -, -, -, hdelta⟩ := control_of_row c
  obtain ⟨hmode, -⟩ := fields_of_range 3 hlo (Nat.le_of_lt_succ c.isLt)
  have hrow : rowOf c = .delta := by rw [rowOf_of_not_sentinel hc, hmode]; rfl
  exact ⟨lengthField c, hdelta hrow⟩

end Sys2Proof

namespace Sys2Proof.Machine

/-! ## A decoder step and its token (R163, R166) -/

/-- Settles O25: a step of a running DECOMPRESS is the decoder step, which runs the token it has read. -/
theorem stepRunsDecodedInstruction : Obligations.StepRunsDecodedInstruction := by
  unfold Obligations.StepRunsDecodedInstruction
  intro s r rest i h hd
  rw [step_of_decoderReady h]
  simp only [decStep, hd]

theorem step_of_decodeToken_truncated {s : State} {r : List Byte} (h : DecoderReady s r)
    (hd : decodeToken r = .error .truncated) : ∃ t, step s = .next t ∧ FailedWith s .truncated t := by
  refine ⟨_, ?_, failedWith_raise _ s⟩
  rw [step_of_decoderReady h]
  simp only [decStep, hd]

theorem exec_failedWith {i : Instr} {s : State} {e : CodecError} (h : expand s.par.palette i = .error e) :
    ∃ t, exec i s = .next t ∧ FailedWith s e t :=
  ⟨_, exec_of_expand_error h, failedWith_raise e s⟩

theorem exec_appended {i : Instr} {s : State} {size : Nat} {exp : List Byte}
    (h : expand s.par.palette i = .ok (size, exp)) (hfits : s.olen + exp.length ≤ s.par.outCap) :
    ∃ t, exec i s = .next t ∧ Appended s size exp t := by
  rw [exec_of_expand_ok h]
  exact appendAndAdvance_appended hfits

theorem exec_full {i : Instr} {s : State} {size : Nat} {exp : List Byte}
    (h : expand s.par.palette i = .ok (size, exp)) (hfull : s.par.outCap < s.olen + exp.length) :
    ∃ t, exec i s = .next t ∧ FailedWith s .allocationFailure t :=
  ⟨_, (exec_of_expand_ok h).trans (appendAndAdvance_full hfull), failedWith_raise _ s⟩

/-- Settles O26: the token's own error, or the two cases of the shared append. -/
theorem execFollowsDecStep : Obligations.ExecFollowsDecStep := by
  unfold Obligations.ExecFollowsDecStep
  intro i s hw
  exact ⟨fun e he => exec_failedWith he, fun size exp he => ⟨expand_size hw he, exec_appended he, exec_full he⟩⟩

/-! ## The four tokens of format ML (R170 to R173) -/

/-- Settles O27: the expansion of a Literal is the bytes it carries. -/
theorem literalPassesBytesThrough : Obligations.LiteralPassesBytesThrough := by
  unfold Obligations.LiteralPassesBytesThrough
  refine ⟨fun s c rest h hhi => ?_, fun bytes s hfits => exec_appended rfl hfits⟩
  obtain ⟨n, rfl⟩ := eq_controlByte_of_range 0 (Nat.zero_le _) hhi
  have hn : (controlByte 0 n).toNat = n.toNat := toNat_controlByte_sub 0 n
  have hd := decodeToken_controlByte_literal n rest
  rw [hn]
  exact ⟨fun hle => stepRunsDecodedInstruction _ _ _ _ h (hd.trans (decodeLiteral_available hle)),
    fun hlt => step_of_decodeToken_truncated h (hd.trans (decodeLiteral_truncated hlt))⟩

/-- Settles O28: the first `n` of the unpacked values, of which there are enough. -/
theorem nibbleUnpacksHighNibbleFirst : Obligations.NibbleUnpacksHighNibbleFirst := by
  unfold Obligations.NibbleUnpacksHighNibbleFirst
  refine ⟨fun s c rest h hlo hhi => ?_, fun n packed s hpacked hfits => ?_⟩
  · obtain ⟨n, rfl⟩ := eq_controlByte_of_range 1 hlo hhi
    have hn : (controlByte 1 n).toNat - 0x40 = n.toNat := toNat_controlByte_sub 1 n
    have hfield : BitVec.ofNat 6 ((controlByte 1 n).toNat - 0x40) = n := ofNat_controlByte_sub 1 n
    have hd := decodeToken_controlByte_nibble n rest
    rw [hfield, hn]
    exact ⟨fun hle => stepRunsDecodedInstruction _ _ _ _ h (hd.trans (decodeNibble_available hle)),
      fun hlt => step_of_decodeToken_truncated h (hd.trans (decodeNibble_truncated hlt))⟩
  · have hlen : ((unpackNibbles packed).take n.toNat).length = n.toNat := by
      rw [List.length_take, unpackNibbles_length]
      omega
    obtain ⟨t, ht, happ⟩ := exec_appended (i := .nibble n packed) rfl (hlen.symm ▸ hfits)
    refine ⟨_, t, ht, happ, hlen, fun i hi => ?_⟩
    have hget : packed[i / 2]? = some (packed[i / 2]'(by omega)) := List.getElem?_eq_getElem _
    refine ⟨_, hget, ?_⟩
    rw [List.getElem?_take_of_lt hi, unpackNibbles_getElem?, hget, Option.map_some]

/-- Settles O29: the expansion of a Run is its value repeated. -/
theorem runRepeatsItsValue : Obligations.RunRepeatsItsValue := by
  unfold Obligations.RunRepeatsItsValue
  refine ⟨fun s c rest h hlo hhi => ?_, fun n v s hfits => exec_appended rfl (by rwa [List.length_replicate])⟩
  obtain ⟨n, rfl⟩ := eq_controlByte_of_range 2 hlo hhi
  have hfield : BitVec.ofNat 6 ((controlByte 2 n).toNat - 0x80) = n := ofNat_controlByte_sub 2 n
  have hd := decodeToken_controlByte_run n rest
  rw [hfield]
  constructor
  · rintro v more rfl
    exact stepRunsDecodedInstruction _ _ _ _ h hd
  · rintro rfl
    exact step_of_decodeToken_truncated h hd

/-- The first value of a progression is the start byte (R173). -/
theorem progression_head? (d : Int) {n : Nat} (start : Byte) (h : 0 < n) :
    (progression d n start)[0]? = some start := by
  cases n with
  | zero => cases h
  | succ n => rfl

/-- Settles O30: the expansion of a Delta is the progression of its start byte. -/
theorem deltaExpandsProgression : Obligations.DeltaExpandsProgression := by
  unfold Obligations.DeltaExpandsProgression
  refine ⟨fun s c rest h hlo hE0 hF0 hF1 hF2 => ?_, fun n start db s hfits => ?_⟩
  · obtain ⟨n, rfl, hshadow⟩ := eq_controlByte_of_delta hlo (by simpa [sentinels] using ⟨hE0, hF0, hF1, hF2⟩)
    have hfield : BitVec.ofNat 6 ((controlByte 3 n).toNat - 0xC0) = n := ofNat_controlByte_sub 3 n
    have hd := decodeToken_controlByte_delta hshadow rest
    rw [hfield]
    constructor
    · rintro start db more rfl
      exact stepRunsDecodedInstruction _ _ _ _ h hd
    · intro hlt
      exact step_of_decodeToken_truncated h (hd.trans (decodeDelta_truncated n hlt))
  · have hlen := progression_length (deltaOfByte db) n.toNat start
    obtain ⟨t, ht, happ⟩ := exec_appended (i := .delta n start db) rfl (hlen.symm ▸ hfits)
    refine ⟨_, t, ht, happ, hlen, progression_head? _ start, fun i a b ha hb => ?_⟩
    exact (eq_deltaNext_iff _ a b).1 (progression_step _ _ start i a b ha hb)

/-! ## The four control bytes of format ESC (R174 to R178) -/

/-- Settles O31: the expansion of a ZeroRun is zero repeated. -/
theorem zeroRunAppendsZeros : Obligations.ZeroRunAppendsZeros := by
  unfold Obligations.ZeroRunAppendsZeros
  refine ⟨fun s rest h => ⟨?_, ?_⟩, fun n s hfits => exec_appended rfl (by rwa [List.length_replicate])⟩
  · rintro n more rfl
    exact stepRunsDecodedInstruction _ _ more _ h rfl
  · rintro rfl
    exact step_of_decodeToken_truncated h rfl

/-- Settles O32: the two availability tests of R176, and the expansion as the unit repeated. -/
theorem patternRepeatsItsUnit : Obligations.PatternRepeatsItsUnit := by
  unfold Obligations.PatternRepeatsItsUnit
  refine ⟨fun s rest h => ⟨?_, ?_⟩, fun count unit s hfits => ?_⟩
  · rintro rfl
    exact step_of_decodeToken_truncated h rfl
  · rintro info more rfl
    exact ⟨fun hle => stepRunsDecodedInstruction _ _ _ _ h (decodePattern_available hle),
      fun hlt => step_of_decodeToken_truncated h (decodePattern_truncated hlt)⟩
  · have hlen := repeatUnit_length unit count.toNat
    obtain ⟨t, ht, happ⟩ := exec_appended (i := .pattern count unit) rfl (hlen.symm ▸ hfits)
    exact ⟨_, t, ht, happ, hlen, fun i hi => repeatUnit_getElem? unit _ i (hlen ▸ hi)⟩

/-- The info byte of a CommonRun holds its length and its palette index (R86, R177). -/
theorem decodeToken_commonRun (info : Byte) (t : List Byte) : decodeToken (0xF2 :: info :: t) =
    .ok (.commonRun (BitVec.ofNat 4 (info.toNat / 16)) (BitVec.ofNat 4 (info.toNat % 16)), t) := by
  rw [← hiNibble_eq_ofNat, ← loNibble_eq_ofNat]
  rfl

theorem expand_commonRun {pal : Vector Byte 8} (n : BitVec 4) {k : BitVec 4} (h : k.toNat < 8) :
    expand pal (.commonRun n k) = .ok (2, List.replicate n.toNat pal[k.toNat]) := by
  simp [expand, expandCommonRun, h]

theorem expand_commonRun_past (pal : Vector Byte 8) (n : BitVec 4) {k : BitVec 4} (h : 8 ≤ k.toNat) :
    expand pal (.commonRun n k) = .error .invalidPaletteIndex := by
  simp [expand, expandCommonRun, h]

/-- Settles O33: an index inside the palette gives its value repeated; one past it has no expansion. -/
theorem commonRunReadsPalette : Obligations.CommonRunReadsPalette := by
  unfold Obligations.CommonRunReadsPalette
  refine ⟨fun s rest h => ⟨?_, ?_⟩, fun n k s => ⟨fun hk hfits => ?_, fun hk => ?_⟩⟩
  · rintro rfl
    exact step_of_decodeToken_truncated h rfl
  · rintro info more rfl
    exact stepRunsDecodedInstruction _ _ _ _ h (decodeToken_commonRun info more)
  · exact exec_appended (expand_commonRun n hk) (by rwa [List.length_replicate])
  · exact exec_failedWith (expand_commonRun_past _ n hk)

theorem exec_reservedF1 (s : State) : ∃ t, exec .reservedF1 s = .next t ∧ FailedWith s .unknownEscape t :=
  exec_failedWith rfl

/-- The reserved escape is a whole token, also as the last byte of the stream (R178). -/
theorem step_of_reservedF1 {s : State} {rest : List Byte} (h : DecoderReady s (0xF1 :: rest)) :
    ∃ t, step s = .next t ∧ FailedWith s .unknownEscape t := by
  rw [stepRunsDecodedInstruction s _ rest .reservedF1 h rfl]
  exact exec_reservedF1 s

/-- Settles O34: the escape has no expansion, and a stream that continues with it runs it. -/
theorem reservedEscapeRaisesUnknownEscape : Obligations.ReservedEscapeRaisesUnknownEscape := by
  unfold Obligations.ReservedEscapeRaisesUnknownEscape
  exact ⟨exec_reservedF1, fun s rest h => step_of_reservedF1 h⟩

/-- Settles O35: the errors of the read and of the token's own rule come before the capacity test. -/
theorem firstFailingCheckDecides : Obligations.FirstFailingCheckDecides := by
  unfold Obligations.FirstFailingCheckDecides
  intro s c rest h
  refine ⟨?_, fun _ hnot => ?_, ?_⟩
  · rintro rfl
    exact step_of_reservedF1 h
  · cases hd : decodeToken (c :: rest) with
    | ok token => exact absurd hd (hnot _ _)
    | error e => exact step_of_decodeToken_truncated h (hd.trans (congrArg _ (decodeToken_cons_error hd)))
  · rintro info more rfl rfl hk
    rw [stepRunsDecodedInstruction _ _ _ _ h (decodeToken_commonRun info more), ← loNibble_eq_ofNat]
    exact exec_failedWith (expand_commonRun_past _ _ (toNat_loNibble info ▸ hk))

/-! ## The expansion bound (R184) and three streams with one result (R183) -/

/-- No token expands to more than 127.5 times its own length (R76); ZeroRun of 255 reaches the bound. -/
theorem expand_length_le {pal : Vector Byte 8} {i : Instr} {size : Nat} {exp : List Byte}
    (h : expand pal i = .ok (size, exp)) : 2 * exp.length ≤ 255 * (encode i).length := by
  rw [encode_length]
  cases i with
  | pattern count unit =>
    cases h
    have hcount : unit.length * count.toNat ≤ unit.length * 15 := Nat.mul_le_mul_left _ (Nat.le_of_lt_succ count.isLt)
    simp only [repeatUnit_length, Instr.size]
    omega
  | zeroRun n =>
    cases h
    have hn := n.isLt
    simp only [List.length_replicate, Instr.size]
    omega
  | reservedF1 => cases h
  | commonRun n k =>
    have hn := n.isLt
    rcases Nat.lt_or_ge k.toNat 8 with hk | hk
    · rw [expand_commonRun n hk] at h
      cases h
      simp only [List.length_replicate, Instr.size]
      omega
    · rw [expand_commonRun_past pal n hk] at h
      cases h
  | literal bytes =>
    cases h
    simp only [Instr.size]
    omega
  | nibble n packed =>
    cases h
    have hn := n.isLt
    simp only [List.length_take, Instr.size]
    omega
  | run n v =>
    cases h
    have hn := n.isLt
    simp only [List.length_replicate, Instr.size]
    omega
  | delta n start db =>
    cases h
    have hn := n.isLt
    simp only [progression_length, Instr.size]
    omega

/-- A turn of the loop of R161 that answers has read a token, and its expansion comes first. -/
theorem decompressFrom_cons_eq_ok {pal : Vector Byte 8} {fuel : Nat} {c : Byte} {t out : List Byte}
    (h : decompressFrom pal (fuel + 1) (c :: t) = .ok out) :
    ∃ i rest size exp more, decodeToken (c :: t) = .ok (i, rest) ∧ expand pal i = .ok (size, exp) ∧
      decompressFrom pal fuel rest = .ok more ∧ out = exp ++ more := by
  cases hd : decodeToken (c :: t) with
  | error e => simp only [decompressFrom, hd] at h; cases h
  | ok token =>
    cases he : expand pal token.1 with
    | error e => simp only [decompressFrom, hd, he] at h; cases h
    | ok expansion =>
      rw [decompressFrom_step pal hd he] at h
      cases hmore : decompressFrom pal fuel token.2 with
      | error e => rw [hmore] at h; cases h
      | ok more => rw [hmore] at h; cases h; exact ⟨_, _, _, _, more, rfl, he, hmore, rfl⟩

/-- The bound of each token adds up over the stream. -/
theorem decompressFrom_length_le {pal : Vector Byte 8} {fuel : Nat} {e o : List Byte}
    (h : decompressFrom pal fuel e = .ok o) : 2 * o.length ≤ 255 * e.length := by
  induction fuel generalizing e o with
  | zero =>
    have ho : o = [] := by cases e <;> cases h <;> rfl
    rw [ho]
    exact Nat.zero_le _
  | succ fuel ih =>
    cases e with
    | nil => cases h; exact Nat.le_refl _
    | cons c t =>
      obtain ⟨i, rest, size, exp, more, hd, he, hmore, rfl⟩ := decompressFrom_cons_eq_ok h
      obtain ⟨-, hstream⟩ := decodeToken_eq_ok hd
      have htoken := expand_length_le he
      have hrest := ih hmore
      rw [← hstream, List.length_append, List.length_append]
      omega

/-- Settles O55: the bound for every number of turns. -/
theorem decompressedLengthIsBounded : Obligations.DecompressedLengthIsBounded := by
  unfold Obligations.DecompressedLengthIsBounded
  exact fun pal e o h => decompressFrom_length_le h

/-- Settles O56: one Run, three Literals, and one Pattern, none of which reads the palette. -/
theorem decompressIsNotInjective : Obligations.DecompressIsNotInjective := by
  unfold Obligations.DecompressIsNotInjective
  exact fun pal => ⟨rfl, rfl, rfl⟩

end Sys2Proof.Machine
end

section
/-! PROOFS. The commands: `START` and the host's own moves, the progress of a running operation, and what the two
operations compute on the state machine. -/

namespace Sys2Proof.Machine

/-! ## START, waiting, and the finishing transition (R190, R191, R193) -/

/-- A range that was written whole reads (R36, R50). -/
theorem Memory.readBytes_of_written {m : Memory} {a n : Nat} (h : ∀ i, i < n → ∃ b, m.read (a + i) = some b) :
    ∃ x, m.readBytes a n = some x := by
  induction n generalizing a with
  | zero => exact ⟨[], rfl⟩
  | succ n ih =>
    obtain ⟨b, hb⟩ := h 0 (Nat.zero_lt_succ n)
    obtain ⟨t, ht⟩ := ih (a := a + 1) fun i hi => by
      rw [Nat.add_assoc, Nat.add_comm 1 i]
      exact h (i + 1) (Nat.succ_lt_succ hi)
    exact ⟨b :: t, Memory.readBytes_succ_eq_some.2 ⟨b, t, hb, ht, rfl⟩⟩

/-- A range with an unwritten byte has no value (R36, R50). -/
theorem Memory.readBytes_of_unwritten {m : Memory} {a n i : Nat} (hi : i < n) (h : m.read (a + i) = none) :
    m.readBytes a n = none := by
  cases hx : m.readBytes a n with
  | none => rfl
  | some x =>
    obtain ⟨hlen, hread⟩ := Memory.readBytes_eq_some.1 hx
    have hb := hread i x[i] (List.getElem?_eq_getElem (hlen ▸ hi))
    cases h.symm.trans hb

/-- The input is read from the whole of `IN[0 .. IN_LEN-1]` when `IN_LEN` is within the capacity (R26). -/
theorem input_of_inLen_le {s : State} (h : s.inLen ≤ s.par.inCap) : s.input = s.inMem.readBytes 0 s.inLen :=
  if_pos h

theorem hostStart_busy {s : State} (h : s.status = .busy) : hostStart s = .next s := by
  simp [hostStart, State.isBusy, h]

theorem hostStart_past {s : State} (hb : s.status ≠ .busy) (h : s.par.inCap < s.inLen) :
    hostStart s = .refused .startPastCapacity := by
  simp [hostStart, State.isBusy, hb, h]

theorem hostStart_unwritten {s : State} (hb : s.status ≠ .busy) (hcap : s.inLen ≤ s.par.inCap)
    (h : s.input = none) : hostStart s = .refused .startInputUnwritten := by
  simp [hostStart, State.isBusy, hb, Nat.not_lt.2 hcap, h]

theorem hostStart_written {s : State} {x : List Byte} (hb : s.status ≠ .busy) (h : s.input = some x) :
    hostStart s = .next (startOp s) := by
  simp [hostStart, State.isBusy, hb, Nat.not_lt.2 (input_inCap h), h]

/-- Settles O6: the four cases of `START`; its third test asks whether the input reads, which it does exactly when
every byte of it was written. -/
theorem startBeginsOperation : Obligations.StartBeginsOperation := by
  unfold Obligations.StartBeginsOperation
  intro s later hhost
  have hstep : step s = hostStart { s with host := later } := by simp only [step, hhost, hostTurn]
  rw [hstep]
  refine ⟨fun hb => hostStart_busy hb, fun hb hcap hwritten => ?_, fun hb hpast => hostStart_past hb hpast,
    fun hb hcap hunwritten => ?_⟩
  · obtain ⟨x, hx⟩ := Memory.readBytes_of_written (m := s.inMem) (a := 0) (n := s.inLen) (by simpa using hwritten)
    have hinput : State.input { s with host := later } = some x := (input_of_inLen_le hcap).trans hx
    exact ⟨_, hostStart_written hb hinput, rfl, rfl, rfl, rfl, rfl, rfl, rfl, rfl, rfl, rfl, rfl⟩
  · obtain ⟨i, hi, hnone⟩ := hunwritten
    have hread : s.inMem.readBytes 0 s.inLen = none :=
      Memory.readBytes_of_unwritten hi (by rwa [Nat.zero_add])
    exact hostStart_unwritten hb hcap ((input_of_inLen_le hcap).trans hread)

/-- Settles O9: a wait asks whether the engine is BUSY; a yield does not. -/
theorem waitingHostLeavesTurnToEngine : Obligations.WaitingHostLeavesTurnToEngine := by
  unfold Obligations.WaitingHostLeavesTurnToEngine
  intro s later
  refine ⟨fun hhost => ⟨fun hb => ?_, fun hb => ?_⟩, fun hhost => ?_⟩
  · simp [step, hhost, hostTurn, State.isBusy, hb]
  · simp [step, hhost, hostTurn, State.isBusy, hb]
  · simp only [step, hhost, hostTurn]

/-- With the cursor at the end of the input a running operation finishes (R193). -/
theorem step_at_end {s : State} (hhost : s.host = []) (hb : s.status = .busy) (hp : s.pos = s.inLen) :
    step s = .next (finish s) := by
  rw [step_of_host_nil hhost]
  simp [engineTurn, hb, hp]

/-- Settles O12: the finishing transition writes `OUT_LEN` and `STATUS`. -/
theorem finishExposesResult : Obligations.FinishExposesResult := by
  unfold Obligations.FinishExposesResult
  exact fun s hhost hb hp => ⟨_, step_at_end hhost hb hp, rfl⟩

/-! ## A running operation, and the loop it follows (R131, R161) -/

/-- The operation `o` runs on the input `x` and has appended `out` so far; the host makes no move. -/
structure Running (o : Op) (x out : List Byte) (s : State) : Prop where
  inv    : Inv s
  host   : s.host = []
  status : s.status = .busy
  op     : s.op = o
  input  : s.input = some x
  output : s.outMem.readBytes 0 s.olen = some out

/-- The loop of `compress` (R131) or of `decompress` (R161), as `OP` selects (R25). -/
def codecLoop (o : Op) (pal : Vector Byte 8) (fuel : Nat) (r : List Byte) : Except CodecError (List Byte) :=
  match o with
  | .compress => compressFrom pal fuel r
  | .decompress => decompressFrom pal fuel r

@[simp] theorem codecLoop_nil (o : Op) (pal : Vector Byte 8) (fuel : Nat) : codecLoop o pal fuel [] = .ok [] := by
  cases o <;> cases fuel <;> rfl

/-- What a step with the cursor inside the input does, against the loop on the bytes from the cursor on: both raise the
same error, or both take one token of `size` input bytes with the output `bytes`, which is within the bound of R184. -/
def TurnFollowsLoop (o : Op) (fuel : Nat) (r : List Byte) (s : State) : Prop :=
  (∃ e, step s = .next (raise e s) ∧ codecLoop o s.par.palette (fuel + 1) r = .error e) ∨
  ∃ bytes size, step s = appendAndAdvance bytes size s ∧ 0 < size ∧ size ≤ r.length ∧
    2 * bytes.length ≤ 255 * size ∧
    codecLoop o s.par.palette (fuel + 1) r =
      (codecLoop o s.par.palette fuel (r.drop size)).map (bytes ++ ·)

/-- An encoder step (R133): the selected token always packs. -/
theorem turnFollowsLoop_encoder {s : State} {r : List Byte} (h : EncoderReady s r) (fuel : Nat) :
    TurnFollowsLoop .compress fuel r s := by
  have hr := ne_nil_of_encoderReady h
  obtain ⟨hmin, -⟩ := standsFor_selectAt s.par.palette hr
  have hlen := pack_length_le (inProducedRanges_selectAt s.par.palette hr)
  refine .inr ⟨_, _, step_encoder h, hmin, cov_selectAt_le _ r, by omega, ?_⟩
  simp only [codecLoop, compressFrom_step s.par.palette hr (serialize_selectAt s.par.palette hr)]
  cases compressFrom s.par.palette fuel (r.drop (cov (selectAt s.par.palette r))) <;> rfl

/-- A decoder step (R163): the token is cut short, its own rule raises, or it expands. -/
theorem turnFollowsLoop_decoder {s : State} {r : List Byte} (h : DecoderReady s r) (hr : r ≠ []) (fuel : Nat) :
    TurnFollowsLoop .decompress fuel r s := by
  obtain ⟨c, t, rfl⟩ := List.exists_cons_of_ne_nil hr
  have hstep := step_of_decoderReady h
  cases hd : decodeToken (c :: t) with
  | error e =>
    obtain rfl := decodeToken_cons_error hd
    exact .inl ⟨.truncated, by simp only [hstep, decStep, hd], by simp only [codecLoop, decompressFrom, hd]⟩
  | ok token =>
    obtain ⟨i, rest⟩ := token
    simp only [decStep, hd] at hstep
    cases he : expand s.par.palette i with
    | error e =>
      exact .inl ⟨e, hstep.trans (exec_of_expand_error he), by simp only [codecLoop, decompressFrom, hd, he]⟩
    | ok expansion =>
      obtain ⟨size, exp⟩ := expansion
      obtain ⟨hw, hstream⟩ := decodeToken_eq_ok hd
      have hsize := expand_size hw he
      have hrest : (c :: t).drop size = rest := by rw [← hstream, List.drop_left' hsize.symm]
      refine .inr ⟨exp, size, hstep.trans (exec_of_expand_ok he), hsize ▸ encode_length_pos i,
        expand_size_le hd he, hsize ▸ expand_length_le he, ?_⟩
      simp only [codecLoop, decompressFrom_step s.par.palette hd he, hrest]
      cases decompressFrom s.par.palette fuel rest <;> rfl

theorem running_of_started {o : Op} {x : List Byte} {s : State} (h : Started o x s) : Running o x [] s :=
  ⟨h.inv, h.host, h.status, h.op, h.input, by rw [h.olen]; rfl⟩

/-- In a state that meets the invariant BUSY means that an operation runs (R23, R245). -/
theorem running_of_busy {s : State} (h : Inv s) (hhost : s.host = []) (hb : s.status = .busy) :
    ∃ x out, Running s.op x out s := by
  obtain ⟨x, hx⟩ := h.busyInput hb
  obtain ⟨out, hout⟩ := h.outWritten (.inl hb)
  exact ⟨x, out, h, hhost, hb, rfl, hx, hout⟩

section
variable {o : Op} {x out : List Byte} {s : State}

theorem Running.length_out (h : Running o x out s) : out.length = s.olen :=
  Memory.readBytes_length h.output

theorem Running.length_rest (h : Running o x out s) : (x.drop s.pos).length = s.inLen - s.pos := by
  rw [List.length_drop, input_length h.input]

theorem Running.pos_le (h : Running o x out s) : s.pos ≤ s.inLen :=
  (h.inv.busyCursor h.status).1

theorem Running.append (h : Running o x out s) {bytes : List Byte} {size : Nat} (hpos : s.pos + size ≤ s.inLen)
    (hfits : s.olen + bytes.length ≤ s.par.outCap) :
    Running o x (out ++ bytes) (advance size (appendOut bytes s)) :=
  ⟨inv_append h.inv h.status hpos hfits, h.host, h.status, h.op, h.input,
    Memory.readBytes_writeBytes_append bytes h.output⟩

theorem Running.endsDone_finish (h : Running o x out s) : EndsDone (finish s) out := by
  have herr : s.err = none := by simpa [h.status] using h.inv.errFailed
  refine ⟨rfl, herr, h.length_out.symm, ?_⟩
  simpa [hostResult] using h.output

/-- Every token of a running operation is one turn of its loop (R192). -/
theorem Running.turnFollowsLoop (h : Running o x out s) (hp : s.pos < s.inLen) (fuel : Nat) :
    TurnFollowsLoop o fuel (x.drop s.pos) s := by
  have hrest := remaining_of_input h.input
  cases o with
  | compress => exact turnFollowsLoop_encoder ⟨h.host, h.status, h.op, hp, hrest⟩ fuel
  | decompress =>
    have hne : x.drop s.pos ≠ [] := by
      rw [Ne, List.drop_eq_nil_iff, input_length h.input]
      exact Nat.not_le.2 hp
    exact turnFollowsLoop_decoder ⟨h.host, h.status, h.op, hp, hrest⟩ hne fuel

end

/-- Settles O13: a running operation finishes at the end of its input; before it, its turn fails or takes a token of at
least one byte that ends inside the input. -/
theorem busyEngineAlwaysProgresses : Obligations.BusyEngineAlwaysProgresses := by
  unfold Obligations.BusyEngineAlwaysProgresses
  intro s hinv hhost hb
  obtain ⟨x, out, h⟩ := running_of_busy hinv hhost hb
  rcases Nat.eq_or_lt_of_le h.pos_le with hp | hp
  · exact ⟨_, step_at_end hhost hb hp, .inr (.inr ⟨rfl, hp⟩)⟩
  · rcases h.turnFollowsLoop hp 0 with ⟨e, hstep, -⟩ | ⟨bytes, size, hstep, hpos, hsize, -, -⟩
    · exact ⟨_, hstep, .inr (.inl ⟨rfl, hp⟩)⟩
    · rw [h.length_rest] at hsize
      rcases appendAndAdvance_cases bytes size s with ⟨-, he⟩ | ⟨-, he⟩
      · refine ⟨_, hstep.trans he, .inl ⟨hb, ?_, ?_⟩⟩
        · rw [advance_pos, appendOut_pos]
          exact Nat.lt_add_of_pos_right hpos
        · rw [advance_pos, appendOut_pos, advance_inLen, appendOut_inLen]
          omega
      · exact ⟨_, hstep.trans he, .inr (.inl ⟨rfl, hp⟩)⟩

/-! ## The state machine computes the loop (R192, R195, R196) -/

/-- How an operation ends whose function gives `result`, with a capacity of `cap` bytes: a result that fits is shown,
and one that does not ends in AllocationFailure; an error of the function is shown, unless the room runs out first,
which it cannot when `cap` is at least `need` (R249). -/
structure EndsWith (cap need : Nat) (result : Except CodecError (List Byte)) (t : State) : Prop where
  fits   : ∀ y, result = .ok y → y.length ≤ cap → EndsDone t y
  full   : ∀ y, result = .ok y → cap < y.length → EndsFailed t .allocationFailure
  failed : ∀ e, result = .error e → EndsFailed t e ∨ EndsFailed t .allocationFailure
  roomy  : ∀ e, result = .error e → need ≤ cap → EndsFailed t e

theorem endsFailed_raise (e : CodecError) (s : State) : EndsFailed (raise e s) e :=
  ⟨rfl, rfl, rfl, by simp [hostResult]⟩

theorem EndsWith.mono {cap need need' : Nat} {result : Except CodecError (List Byte)} {t : State}
    (h : EndsWith cap need result t) (hneed : need ≤ need') : EndsWith cap need' result t :=
  { h with roomy := fun e he hcap => h.roomy e he (hneed.trans hcap) }

theorem endsWith_done {cap need : Nat} {y : List Byte} {t : State} (h : EndsDone t y) (hy : y.length ≤ cap) :
    EndsWith cap need (.ok y) t where
  fits _ hy' _ := by cases hy'; exact h
  full _ hy' hlt := by cases hy'; exact absurd hy (Nat.not_le.2 hlt)
  failed _ he := by cases he
  roomy _ he := by cases he

theorem endsWith_error {cap need : Nat} {e : CodecError} {t : State} (h : EndsFailed t e) :
    EndsWith cap need (.error e) t where
  fits _ hy := by cases hy
  full _ hy := by cases hy
  failed _ he := by cases he; exact .inl h
  roomy _ he _ := by cases he; exact h

/-- Room runs out at the group that ends `shown`, with which any result there may be begins. -/
theorem endsWith_full {cap need : Nat} {shown : List Byte} {more : Except CodecError (List Byte)} {t : State}
    (h : EndsFailed t .allocationFailure) (hfull : cap < shown.length) (hneed : shown.length ≤ need) :
    EndsWith cap need (more.map (shown ++ ·)) t where
  fits y hy hlen := by
    cases more with
    | error e => cases hy
    | ok z =>
      cases hy
      rw [List.length_append] at hlen
      omega
  full _ _ _ := h
  failed _ _ := .inr h
  roomy _ _ hcap := absurd hfull (Nat.not_lt.2 (hneed.trans hcap))

theorem map_append_map (shown bytes : List Byte) (more : Except CodecError (List Byte)) :
    (more.map (bytes ++ ·)).map (shown ++ ·) = more.map (shown ++ bytes ++ ·) := by
  cases more with
  | error e => rfl
  | ok z => exact congrArg Except.ok (List.append_assoc shown bytes z).symm

/-- At the end of the input the loop has nothing more to give, and the operation shows what it has appended (R193). -/
theorem Running.endsWith_finish {o : Op} {x out : List Byte} {s : State} (h : Running o x out s)
    (hp : s.pos = s.inLen) (fuel need : Nat) :
    EndsWith s.par.outCap need ((codecLoop o s.par.palette fuel (x.drop s.pos)).map (out ++ ·)) (finish s) := by
  have hnil : x.drop s.pos = [] := List.drop_eq_nil_of_le (by rw [hp, input_length h.input])
  have hresult : (codecLoop o s.par.palette fuel (x.drop s.pos)).map (out ++ ·) = .ok out := by
    rw [hnil, codecLoop_nil]
    exact congrArg Except.ok (List.append_nil out)
  rw [hresult]
  exact endsWith_done h.endsDone_finish (h.length_out ▸ h.inv.olenCap)

/-- The simulation, by induction on the turns of the loop: each token step takes one turn of it, and what has been
appended with what the loop has still to give is the same result at every step. -/
theorem Running.run_endsWith {o : Op} {x out : List Byte} {s : State} (h : Running o x out s) {fuel : Nat}
    (hfuel : s.inLen - s.pos ≤ fuel) :
    ∃ (k : Nat) (t : State), k ≤ fuel + 1 ∧ Host.Core.run Sys2Proof.core k s = .next t ∧
      t.inMem = s.inMem ∧ EndsWith s.par.outCap (s.olen + 128 * (s.inLen - s.pos))
        ((codecLoop o s.par.palette fuel (x.drop s.pos)).map (out ++ ·)) t := by
  induction fuel generalizing out s with
  | zero =>
    have hp : s.pos = s.inLen := Nat.le_antisymm h.pos_le (Nat.sub_eq_zero_iff_le.1 (Nat.le_zero.1 hfuel))
    exact ⟨1, _, Nat.le_refl _, run_succ_next 0 (step_at_end h.host h.status hp), rfl, h.endsWith_finish hp 0 _⟩
  | succ fuel ih =>
    rcases Nat.eq_or_lt_of_le h.pos_le with hp | hp
    · exact ⟨1, _, Nat.le_add_left _ _, run_succ_next 0 (step_at_end h.host h.status hp), rfl,
        h.endsWith_finish hp _ _⟩
    rcases h.turnFollowsLoop hp fuel with ⟨e, hstep, hloop⟩ | ⟨bytes, size, hstep, hpos, hsize, hlen, hloop⟩
    · refine ⟨1, _, Nat.le_add_left _ _, run_succ_next 0 hstep, rfl, ?_⟩
      rw [hloop]
      exact endsWith_error (endsFailed_raise e s)
    rw [h.length_rest] at hsize
    have hshown : (out ++ bytes).length = s.olen + bytes.length := by rw [List.length_append, h.length_out]
    rw [hloop, map_append_map]
    rcases appendAndAdvance_cases bytes size s with ⟨hfits, he⟩ | ⟨hfull, he⟩
    · obtain ⟨k, t, hk, hrun, hmem, hends⟩ := ih (h.append (size := size) (by omega) hfits)
        (by simp only [advance_inLen, appendOut_inLen, advance_pos, appendOut_pos]; omega)
      refine ⟨k + 1, t, Nat.succ_le_succ hk, (run_succ_next k (hstep.trans he)).trans hrun, hmem, ?_⟩
      rw [List.drop_drop]
      refine hends.mono ?_
      simp only [advance_inLen, appendOut_inLen, advance_pos, appendOut_pos, advance_olen, appendOut_olen]
      omega
    · exact ⟨1, _, Nat.le_add_left _ _, run_succ_next 0 (hstep.trans he), rfl,
        endsWith_full (endsFailed_raise _ s) (hshown ▸ hfull) (by omega)⟩

/-- An operation that has just been started ends as its function says. -/
theorem run_of_started {o : Op} {x : List Byte} {s : State} (h : Started o x s) :
    ∃ (k : Nat) (t : State), k ≤ x.length + 1 ∧ Host.Core.run Sys2Proof.core k s = .next t ∧
      t.inMem = s.inMem ∧ EndsWith s.par.outCap (128 * x.length) (codecLoop o s.par.palette x.length x) t := by
  obtain ⟨k, t, hk, hrun, hmem, hends⟩ := (running_of_started h).run_endsWith (fuel := x.length)
    (by rw [input_length h.input]; exact Nat.sub_le _ _)
  refine ⟨k, t, hk, hrun, hmem, ?_⟩
  have hmap : (codecLoop o s.par.palette x.length x).map (fun y => y) = codecLoop o s.par.palette x.length x := by
    cases codecLoop o s.par.palette x.length x <;> rfl
  simpa [h.pos, h.olen, ← input_length h.input, hmap] using hends

/-- Settles O57: the simulation, with a stream that always exists and is at most twice as long as the input. -/
theorem compressOperationComputesCompress : Obligations.CompressOperationComputesCompress := by
  unfold Obligations.CompressOperationComputesCompress
  intro s x h
  obtain ⟨y, hy, hlen⟩ := compressIsTotalAndBounded s.par.palette x
  obtain ⟨k, t, hk, hrun, hmem, hends⟩ := run_of_started h
  exact ⟨y, k, t, hy, hlen, hk, hrun, hends.fits y hy, hends.full y hy, fun a => by rw [hmem]⟩

/-- The errors of `decompress` (R161): a token cut short, or an error of a token's own rule. -/
theorem decompressFrom_eq_error {pal : Vector Byte 8} {fuel : Nat} {r : List Byte} {e : CodecError}
    (h : decompressFrom pal fuel r = .error e) :
    e = .truncated ∨ e = .invalidPaletteIndex ∨ e = .unknownEscape := by
  induction fuel generalizing r with
  | zero => cases r <;> cases h
  | succ fuel ih =>
    cases r with
    | nil => cases h
    | cons c t =>
      simp only [decompressFrom] at h
      split at h
      · cases h
        exact .inl rfl
      · split at h
        · rename_i he
          cases h
          exact .inr (expand_eq_error he)
        · split at h
          · rename_i hrest
            cases h
            exact ih hrest
          · cases h

/-- Settles O58: the simulation, with the errors a decoded stream can give. -/
theorem decompressOperationComputesDecompress : Obligations.DecompressOperationComputesDecompress := by
  unfold Obligations.DecompressOperationComputesDecompress
  intro s x h
  obtain ⟨k, t, hk, hrun, hmem, hends⟩ := run_of_started h
  exact ⟨k, t, hk, hrun, fun y hy => ⟨hends.fits y hy, hends.full y hy⟩,
    fun e he => ⟨decompressFrom_eq_error he, hends.failed e he, hends.roomy e he⟩, fun a => by rw [hmem]⟩

/-! ## COMPRESS, then DECOMPRESS (R197) -/

/-- No transition of the engine changes the host's moves (R190). -/
theorem engineTurn_host {s t : State} (h : engineTurn s = .next t) : t.host = s.host := by
  obtain ⟨-, ⟨-, rfl⟩ | ⟨e, rfl⟩ | ⟨bytes, size, -, -, rfl⟩⟩ := engineTurn_next h <;> rfl

/-- Without a host move nothing runs on from a state that is not BUSY (R37). -/
theorem run_of_quiescent {s t : State} {k : Nat} (hhost : s.host = []) (hs : s.status ≠ .busy)
    (h : Host.Core.run Sys2Proof.core k s = .next t) : t = s := by
  cases k with
  | zero =>
    cases h
    rfl
  | succ k =>
    have hstuck := (step_of_host_nil hhost).trans (engineTurn_quiescent hs)
    cases (run_succ_fault (M := Sys2Proof.core) k hstuck).symm.trans h

/-- Without a host move two runs that end outside BUSY end in the same state, whatever their lengths. -/
theorem run_end_unique {s t t' : State} {k k' : Nat} (hhost : s.host = [])
    (h : Host.Core.run Sys2Proof.core k s = .next t) (h' : Host.Core.run Sys2Proof.core k' s = .next t')
    (ht : t.status ≠ .busy) (ht' : t'.status ≠ .busy) : t = t' := by
  induction k generalizing s k' with
  | zero =>
    cases h
    exact (run_of_quiescent hhost ht h').symm
  | succ k ih =>
    cases k' with
    | zero =>
      cases h'
      exact run_of_quiescent hhost ht' h
    | succ k' =>
      cases hstep : step s with
      | next u =>
        have hu : u.host = s.host := engineTurn_host ((step_of_host_nil hhost).symm.trans hstep)
        rw [run_succ_next (M := Sys2Proof.core) k hstep] at h
        rw [run_succ_next (M := Sys2Proof.core) k' hstep] at h'
        exact ih (hu.trans hhost) h h'
      | fault f => cases (run_succ_fault (M := Sys2Proof.core) k hstep).symm.trans h
      | refused f => cases (run_succ_refused (M := Sys2Proof.core) k hstep).symm.trans h

/-- A COMPRESS of `x` that ends in DONE shows the encoded stream of `x` (R195). -/
theorem compress_of_endsDone {s t : State} {x y : List Byte} {k : Nat} (h : Started .compress x s)
    (hrun : Host.Core.run Sys2Proof.core k s = .next t) (hdone : EndsDone t y) :
    compress s.par.palette x = .ok y := by
  obtain ⟨z, k', t', hz, -, -, hrun', hfits, hfull, -⟩ := compressOperationComputesCompress s x h
  obtain ⟨hstatus, -, -, hshown⟩ := hdone
  have ht : t.status ≠ .busy := by simp [hstatus]
  rcases Nat.lt_or_ge s.par.outCap z.length with hlt | hge
  · obtain ⟨hstatus', -⟩ := hfull hlt
    obtain rfl := run_end_unique h.host hrun hrun' ht (by simp [hstatus'])
    cases hstatus.symm.trans hstatus'
  · obtain ⟨hstatus', -, -, hshown'⟩ := hfits hge
    obtain rfl := run_end_unique h.host hrun hrun' ht (by simp [hstatus'])
    rwa [Option.some.inj (hshown.symm.trans hshown')]

/-- Settles O59: the result shown is the encoded stream of `x`, which decodes to `x`. -/
theorem compressThenDecompressRestoresInput : Obligations.CompressThenDecompressRestoresInput := by
  unfold Obligations.CompressThenDecompressRestoresInput
  intro s s' x y h hdone h' hpal hroom
  obtain ⟨k, t, hrun, hends⟩ := hdone
  have hy := compress_of_endsDone h hrun hends
  obtain ⟨z, hz, hback⟩ := decompressInvertsCompress s.par.palette x
  obtain rfl : y = z := Except.ok.inj (hy.symm.trans hz)
  obtain ⟨k', t', -, hrun', hok, -⟩ := decompressOperationComputesDecompress s' y h'
  exact ⟨k', t', hrun', (hok x (hpal ▸ hback)).1 hroom⟩

end Sys2Proof.Machine
end

section
/-! PROOFS. The failure entry: what it writes, and where the engine and the host stand after it. -/

namespace Sys2Proof.Machine

/-- `OUT` is closed to the host outside DONE (R247, U3). -/
theorem hostReadOut_of_not_done {s : State} (h : s.status ≠ .done) (i : Nat) : hostReadOut s i = none :=
  if_neg fun hread => h hread.1

/-- An engine's turn that ends in FAILED is the failure entry (R192, R220): the finishing transition ends in DONE, and a
token that fits leaves the engine BUSY. -/
theorem engineTurn_eq_raise_of_failed {s t : State} (h : engineTurn s = .next t) (hfailed : t.status = .failed) :
    ∃ e, t = raise e s := by
  obtain ⟨hbusy, ⟨-, rfl⟩ | hraise | ⟨bytes, size, -, -, rfl⟩⟩ := engineTurn_next h
  · cases hfailed
  · exact hraise
  · cases hbusy.symm.trans hfailed

/-- Settles O19: a step that ends in FAILED is the failure entry, after which `OUT` is closed and the engine rests. -/
theorem failureEntryWritesThreeRegisters : Obligations.FailureEntryWritesThreeRegisters := by
  unfold Obligations.FailureEntryWritesThreeRegisters
  refine ⟨failedWith_raise, fun s t hhost hstep hfailed => ?_⟩
  obtain ⟨e, rfl⟩ := engineTurn_eq_raise_of_failed ((step_of_host_nil hhost).symm.trans hstep) hfailed
  refine ⟨⟨e, failedWith_raise e s⟩, hostReadOut_of_not_done (by simp), ?_⟩
  have hhost' : (raise e s).host = [] := hhost
  exact (step_of_host_nil hhost').trans (engineTurn_quiescent (by simp))

end Sys2Proof.Machine
end

section
/-! PROOFS. Reset, and what the host reads. -/

namespace Sys2Proof

/-! ## The palette of the hardware (R8) -/

theorem Config.legalEntry_ne (b : Byte) : Config.legalEntry b ≠ 0x64 := by
  unfold Config.legalEntry
  split
  · decide
  · assumption

theorem Config.hardware_palette_toList :
    Config.hardware.palette.toList = (List.ofFn Config.paletteSource).map Config.legalEntry := rfl

/-- Every entry of the hardware's palette has gone through `Config.legalEntry`. -/
theorem Config.hardware_admissible : Config.hardware.admissible := by
  rw [Params.admissible, Config.hardware_palette_toList]
  intro hmem
  obtain ⟨b, -, hb⟩ := List.mem_map.1 hmem
  exact Config.legalEntry_ne b hb

end Sys2Proof

namespace Sys2Proof.Machine

/-! ## Reset (R240, R241) -/

/-- Settles O1: each register is a field of the reset state, and outside DONE the host reads no byte of `OUT`. -/
theorem resetRegisterValues : Obligations.ResetRegisterValues := by
  unfold Obligations.ResetRegisterValues
  refine ⟨⟨Config.hardware, rfl⟩, fun p => ?_⟩
  refine ⟨rfl, rfl, rfl, rfl, rfl, rfl, rfl, rfl, fun i => ⟨rfl, rfl⟩, ?_⟩
  exact hostReadOut_of_not_done (by simp)

/-- A reset is enabled in every state, and no register but the parameters enters its result (R241). -/
theorem step_of_host_reset {s : State} {later : List HostMove} (h : s.host = .reset :: later) :
    step s = .next { State.resetOf s.par with host := later } := by
  simp only [step, h, hostTurn, hostReset]

/-- Settles O2: the reset is enabled whatever runs, and its result is not DONE, so `OUT` is closed to the host. -/
theorem resetAbandonsOperation : Obligations.ResetAbandonsOperation := by
  unfold Obligations.ResetAbandonsOperation
  intro s later h
  exact ⟨_, step_of_host_reset h, rfl, hostReadOut_of_not_done (by simp)⟩

/-- The empty buffers of the reset state meet the clauses on their cells, and IDLE meets those on a running or finished
operation; only the palette's clause needs the hypothesis (R240). -/
theorem inv_resetOf {p : Params} (h : p.admissible) : Inv (State.resetOf p) where
  palette := h
  inLenWidth := Nat.two_pow_pos _
  posCap := Nat.zero_le _
  olenCap := Nat.zero_le _
  outLenCap := Nat.zero_le _
  inForm := (State.resetOf_wf p).1
  outForm := (State.resetOf_wf p).2
  inBounds := by simp
  outBounds := by simp
  errFailed := by simp
  outLenHidden := by simp
  outLenDone := by simp
  busyCursor := by simp
  busyInput := by simp
  outWritten := by simp

/-- Settles O3: the parameters enter the reset state's invariant by the palette alone, and the hardware's is
admissible. -/
theorem resetMeetsInvariant : Obligations.ResetMeetsInvariant := by
  unfold Obligations.ResetMeetsInvariant
  exact ⟨fun _ => inv_resetOf, inv_resetOf Config.hardware_admissible⟩

/-! ## What the host reads (R247) -/

/-- The one way the host sees a byte of `OUT`: STATUS and index are as R247 asks, and the byte was written. -/
theorem hostReadOut_eq_some {s : State} {i : Nat} {b : Byte} :
    hostReadOut s i = some b ↔ (s.status = .done ∧ i < s.outLen) ∧ s.outMem.read i = some b := by
  rw [hostReadOut, Option.ite_none_right_eq_some]

/-- Every byte of a finished operation's result was written (R29, R193). -/
theorem Inv.exists_read_of_lt_outLen {s : State} (h : Inv s) (hdone : s.status = .done) {i : Nat}
    (hi : i < s.outLen) : ∃ b, s.outMem.read i = some b := by
  obtain ⟨out, hout⟩ := h.outWritten (.inr hdone)
  rw [← h.outLenDone hdone] at hout
  refine Option.ne_none_iff_exists'.1 fun hnone => ?_
  rw [Memory.readBytes_of_unwritten hi (by rwa [Nat.zero_add])] at hout
  cases hout

/-- No error is reported outside FAILED (R28). -/
theorem Inv.err_eq_none {s : State} (h : Inv s) (hs : s.status ≠ .failed) : s.err = none :=
  Option.not_isSome_iff_eq_none.1 fun herr => hs (h.errFailed.1 herr)

/-- Settles O8: below `OUT_LEN` a finished operation has written every byte, and the clauses of the invariant on `ERR`
and `OUT_LEN` give what reads while BUSY. -/
theorem hostReadsOutputOnlyWhenDone : Obligations.HostReadsOutputOnlyWhenDone := by
  unfold Obligations.HostReadsOutputOnlyWhenDone
  refine ⟨fun s => ⟨rfl, rfl, rfl, rfl, rfl⟩, fun s h => ⟨fun i => ⟨?_, ?_⟩, ?_, ?_, ?_, ?_⟩⟩
  · rintro ⟨b, hb⟩
    exact (hostReadOut_eq_some.1 hb).1
  · rintro ⟨hdone, hi⟩
    obtain ⟨b, hb⟩ := h.exists_read_of_lt_outLen hdone hi
    exact ⟨b, hostReadOut_eq_some.2 ⟨⟨hdone, hi⟩, hb⟩⟩
  · exact fun i b hb => (hostReadOut_eq_some.1 hb).2
  · intro hbusy
    have herr : s.err = none := h.err_eq_none (by simp [hbusy])
    have hout : s.outLen = 0 := h.outLenHidden (by simp [hbusy])
    simp [hostRead, hbusy, herr, hout, Status.code, errCode]
  · exact fun hop => by simp [hostRead, hop, Op.code]
  · exact fun hop => by simp [hostRead, hop, Op.code]

end Sys2Proof.Machine
end
